-- ==== Sys2Proof/Word.lean ====
section
/-!
DEFINITION. The fixed-width words of the big_endian_marshaller (spec/00_scope.md R11, R12; spec/20_memory.md R50).
-/
namespace Sys2Proof

/-- One byte of the buffer storage (R31, R53). -/
abbrev Byte := BitVec 8

/-- A control and status register, or a command word: 32 bits (R22, R70). -/
abbrev Word32 := BitVec 32

/-- One magnitude word. The build's word width W is one of 8, 16, 32, 64, 128, 256 (R6); a W-bit word is held
zero-extended to the widest legal width (R11 `zext`). DESIGN CHOICE, log 2; the invariant says that the bits at W and
above are zero. -/
abbrev Word := BitVec 256

end Sys2Proof
end

