-- ==== Sys2Proof/Config.lean ====
section
/-!
DEFINITION. What one build of the block fixes: the parameters of spec/00_scope.md R6 to R10. The spec leaves no value
free after which the machine goes on, so no constant without a body stands here (INVENTORY.md).
-/
namespace Sys2Proof

/-- The legal word widths (R6): 32 and 64, and for the generic build every multiple of 8 that divides 256. No other
width is a configuration (spec/93_implementation_defined.md I1, "refuse"). -/
inductive WordBits where
  | w8 | w16 | w32 | w64 | w128 | w256
deriving DecidableEq, Repr

/-- W, the width in bits of one magnitude word (R6). -/
def WordBits.bits : WordBits → Nat
  | .w8 => 8
  | .w16 => 16
  | .w32 => 32
  | .w64 => 64
  | .w128 => 128
  | .w256 => 256

/-- B = W / 8, the bytes of one word (R7). -/
def WordBits.bytes (w : WordBits) : Nat := w.bits / 8

/-- K = 256 / W, the words that hold 256 bits (R8, the source's `wordsFor256`). -/
def WordBits.wordsFor256 (w : WordBits) : Nat := 256 / w.bits

/-- The word width a number names, if it is a legal one (R6). -/
def WordBits.ofBits : Nat → Option WordBits
  | 8 => some .w8
  | 16 => some .w16
  | 32 => some .w32
  | 64 => some .w64
  | 128 => some .w128
  | 256 => some .w256
  | _ => none

/-- The configuration of one instance (R17): W, MAX_WORDS (R9) and BUF_BYTES (R10). -/
structure Config where
  wordBits : WordBits
  maxWords : Nat
  bufBytes : Nat
deriving DecidableEq, Repr

/-- W of a build (R6). -/
abbrev Config.W (c : Config) : Nat := c.wordBits.bits

/-- B of a build (R7). -/
abbrev Config.B (c : Config) : Nat := c.wordBits.bytes

/-- K of a build (R8). -/
abbrev Config.K (c : Config) : Nat := c.wordBits.wordsFor256

/-- The build that `State.reset` has: the configuration of spec/95_test_vectors.md with W = 64. DESIGN CHOICE, log 1:
the spec leaves all three parameters OPEN, and every statement about the machine is for every build. -/
def Config.reference : Config := { wordBits := .w64, maxWords := 64, bufBytes := 256 }

end Sys2Proof
end

