-- ==== Sys2Proof/Syntax.lean ====
section
/-!
DEFINITION. The instructions of the block: the commands of spec/opcode_table.json (spec/30_encoding.md R72). No command
has an operand field (R73).
-/
namespace Sys2Proof

inductive Instr where
  /-- MARSHAL: the minimal big-endian encoding of the magnitude into the buffer (spec/40_byte_marshaller.md R100). -/
  | marshal
  /-- MAXLEN: an upper bound on that encoding's length (spec/41_max_length_estimator.md R130). -/
  | maxlen
  /-- TRUNC256: the magnitude modulo 2^256, in place (spec/42_width_truncator.md R140). -/
  | trunc256
deriving DecidableEq, Repr

end Sys2Proof
end

