-- ==== Sys2Proof/Machine/HostSyntax.lean ====
section
/-!
DEFINITION. What the host sends to the block and what it is given back: the host-port statements of
spec/30_encoding.md R77 to R79 over the address spaces of spec/20_memory.md R50, and the turns of the agents
(spec/00_scope.md R17).
-/
namespace Sys2Proof.Machine

/-- One host-port access (R78). A CSR offset has 8 bits, a MAG index 16 and a BUF index 32 (R50). -/
inductive HostAccess where
  /-- `csrw off, v`: a CSR write (R51). -/
  | csrw (off : BitVec 8) (v : Word32)
  /-- `csrr off`: a CSR read (R51). -/
  | csrr (off : BitVec 8)
  /-- `magw i, v`: a write of one whole word (R52). -/
  | magw (i : BitVec 16) (v : Word)
  /-- `magr i`: a read of one whole word (R52). -/
  | magr (i : BitVec 16)
  /-- `bufw j, v`: a write of one byte (R53). -/
  | bufw (j : BitVec 32) (v : Byte)
  /-- `bufr j`: a read of one byte (R53). -/
  | bufr (j : BitVec 32)
deriving DecidableEq, Repr

/-- One statement of the host's program: an access, or the polling loop `wait` (R79), which is the host's only control
flow (R80). -/
inductive HostStmt where
  | access (a : HostAccess)
  | wait
deriving DecidableEq, Repr

/-- Who moves at a step: the host makes its next access, the core performs the pending command (R17, R196), or the reset
input is asserted (R190). -/
inductive Turn where
  | host
  | core
  | reset
deriving DecidableEq, Repr

/-- What a host read was given: the space, the index and the value (R51 to R53, R68 "block gives back"). -/
inductive Reply where
  | csr (off : BitVec 8) (v : Word32)
  | mag (i : BitVec 16) (v : Word)
  | buf (j : BitVec 32) (v : Byte)
deriving DecidableEq, Repr

/-- One line of host assembly (R77, R79): an access as it stands, a command mnemonic, `.cmd`, `wait`, `setmag`, `run`. -/
inductive AsmLine where
  | access (a : HostAccess)
  | command (i : Instr)
  | rawCommand (c : Word32)
  | wait
  | setmag (v : Nat)
  | run (i : Instr)
deriving DecidableEq, Repr

end Sys2Proof.Machine
end

