-- ==== Sys2Proof/WellFormed.lean ====
section
/-!
DEFINITION. The checks on terms: a legal configuration (spec/00_scope.md R6, R9, R10), a well-formed instruction
(spec/30_encoding.md R73) and well-formed host statements (spec/20_memory.md R50, R52).
-/
namespace Sys2Proof

/-- R9 and R10: `1 <= MAX_WORDS <= 65535`, `MAX_WORDS * B <= 2^32 - 1`, `1 <= BUF_BYTES <= 2^32 - 1`. (R6 is the type
`WordBits`; a width it does not have is refused by `WordBits.ofBits`.) -/
def Config.legal (c : Config) : Bool :=
  decide (1 ≤ c.maxWords) && decide (c.maxWords ≤ 65535) && decide (c.maxWords * c.B ≤ 2 ^ 32 - 1) &&
    decide (1 ≤ c.bufBytes) && decide (c.bufBytes ≤ 2 ^ 32 - 1)

/-- No command has an operand (R73), so there is nothing that could make one ill-formed. -/
def Instr.wellFormed : Instr → Bool
  | .marshal => true
  | .maxlen => true
  | .trunc256 => true

namespace Machine

/-- In `magw` the value is W bits (R52, R78); every other field's width is its type. -/
def HostAccess.wellFormed (c : Config) : HostAccess → Bool
  | .csrw _ _ => true
  | .csrr _ => true
  | .magw _ v => decide (v.toNat < 2 ^ c.W)
  | .magr _ => true
  | .bufw _ _ => true
  | .bufr _ => true

/-- A line of host assembly. The words that `setmag` writes must have an index in the MAG space, 0 to 65535 (R50). -/
def AsmLine.wellFormed (c : Config) : AsmLine → Bool
  | .access a => a.wellFormed c
  | .command i => i.wellFormed
  | .rawCommand _ => true
  | .wait => true
  | .setmag v => decide (v.log2 / c.W < 65536)
  | .run i => i.wellFormed

end Machine

end Sys2Proof
end

