-- ==== Sys2Proof/Decode.lean ====
section
/-!
DEFINITION. The decoder and the encoder of command words (spec/30_encoding.md R70 to R76, R81).
-/
namespace Sys2Proof

/-- OP, bits 3:0 of a command word (R71). -/
def opField (c : Word32) : BitVec 4 := c.extractLsb' 0 4

/-- RSV, bits 31:4 of a command word (R71). -/
def rsvField (c : Word32) : BitVec 28 := c.extractLsb' 4 28

/-- Why a command word is illegal (R74): its OP is a reserved value, or its OP is a command's and its RSV is not 0. -/
inductive IllegalWord where
  | reservedOp (op : BitVec 4)
  | reservedBits (rsv : BitVec 28)
deriving DecidableEq, Repr

/-- What a command word decodes to (R81): a command, or ILLEGAL by name. -/
inductive Decoded where
  | command (i : Instr)
  | illegal (why : IllegalWord)
deriving DecidableEq, Repr

/-- The name under which an illegal word is rejected (R74). -/
def illegalReason (c : Word32) : IllegalWord :=
  if opField c = 0x1 ∨ opField c = 0x2 ∨ opField c = 0x3 then .reservedBits (rsvField c) else .reservedOp (opField c)

/-- The decode function of R81, total on all 2^32 words. -/
def decode (c : Word32) : Decoded :=
  if c = 0x00000001 then .command .marshal
  else if c = 0x00000002 then .command .maxlen
  else if c = 0x00000003 then .command .trunc256
  else .illegal (illegalReason c)

/-- OP of a command (R72). -/
def opcode : Instr → BitVec 4
  | .marshal => 0x1
  | .maxlen => 0x2
  | .trunc256 => 0x3

/-- The command word of a command (R71): RSV = 0 above OP. -/
def encode (i : Instr) : Word32 := (0 : BitVec 28) ++ opcode i

/-- The command word that `nbits` bits of value `w` make: the bits above `nbits` are 0, and a command word has 32 bits
(R70, R76). -/
def tableWord (nbits w : Nat) : Word32 := BitVec.ofNat 32 (w % 2 ^ nbits)

/-- The instruction the decoder reads from the table's word `w` of `nbits` bits. A number that does not fit one 32-bit
command word is no command word (R76), so it is refused. -/
def decodeTableWord (nbits w : Nat) : Option Instr :=
  if w % 2 ^ nbits < 2 ^ 32 then
    match decode (tableWord nbits w) with
    | .command i => some i
    | .illegal _ => none
  else none

end Sys2Proof
end

