-- ==== Sys2Proof/Machine/State.lean ====
section
/-!
DEFINITION. The state of one instance of the block (spec/10_state.md R20 to R33), the two model faults
(spec/60_exceptions.md R182) and the state after reset (spec/70_reset_and_hazards.md R190, R191).
-/
namespace Sys2Proof.Machine

/-- The block's storage (R30, R31, R33): the MAG words and BUF bytes that have been written since reset, each as a list
of (index, value) pairs with strictly rising indices. An index that is not listed is an unwritten location: it has no
value (R33, log 3). -/
structure Memory where
  mag : List (Nat × Word)
  buf : List Host.Cell
deriving DecidableEq, Repr

/-- The state. `cfg` is the build (R17), constant in every run. `cmdlat` and `pending` are the hidden state of R32;
`status`, `magLen`, `bufCap` and `result` are the CSRs of R24 to R27 (CMD has no stored value, R23; CONFIG0 and CONFIG1
are computed from `cfg`, R28, R29); `mem` is the storage.
The last three fields are the model's, not the block's (log 4, 5, 6): `host` is the host's program still to run, oldest
statement first; `sched` says which agent moves at each coming step; `replies` is what host reads were given, newest
first. -/
structure State where
  cfg     : Config
  cmdlat  : Word32
  pending : Bool
  status  : Word32
  magLen  : Word32
  bufCap  : Word32
  result  : Word32
  mem     : Memory
  host    : List HostStmt
  sched   : List Turn
  replies : List Reply
deriving DecidableEq, Repr

/-- The model faults of R182. They are not hardware behaviour: each marks a place where the spec gives no value. -/
inductive Fault where
  /-- UNWRITTEN_READ: a command or the host reads a MAG word or BUF byte that nothing wrote since reset (R33). Raised by
  the commands' and the host's reads of storage. Safe: the hardware returns some value, and the model has no run past
  that point. -/
  | unwrittenRead
  /-- HOST_RACE: the host makes an access that R197 forbids while STATUS.BUSY = 1. Raised by the host port. Safe: the
  hardware's effect is unspecified, and the model has no run past that point. -/
  | hostRace
deriving DecidableEq, Repr

/-- The refusals. The model gives every command its meaning and refuses none. -/
inductive Refusal where
  /-- An instruction that has no meaning yet, raised only by an arm of `exec`. Safe: the model stops. No arm raises it. -/
  | notModelled (mnemonic : String)
deriving DecidableEq, Repr

/-- The block of build `c` right after reset, with no host program loaded: every CSR 0, nothing pending (R190), no
storage written (R191). -/
def State.resetOf (c : Config) : State where
  cfg := c
  cmdlat := 0x00000000
  pending := false
  status := 0x00000000
  magLen := 0x00000000
  bufCap := 0x00000000
  result := 0x00000000
  mem := { mag := [], buf := [] }
  host := []
  sched := []
  replies := []

/-- The machine right after reset, in the reference build (log 1). -/
def State.reset : State := State.resetOf Config.reference

/-- The three outcomes of a step of this machine. -/
abbrev Result := Host.Outcome State Fault Refusal

end Sys2Proof.Machine
end

