-- ==== Sys2Proof/Machine/Flags.lean ====
section
/-!
DEFINITION. The STATUS register's fields (spec/10_state.md R24, R36), the error codes (spec/60_exceptions.md R161) and
what starting and ending a command does to STATUS (spec/10_state.md R23, spec/60_exceptions.md R166 to R168).
-/
namespace Sys2Proof.Machine

/-- The four errors a command can end in (R161). Code 0, NONE, is success (R167); codes 5 to 15 do not exist (R169). -/
inductive ErrCode where
  | bufferTooSmall
  | nonCanonical
  | badOperand
  | illegalCommand
deriving DecidableEq, Repr

/-- The code in STATUS.ERR (R161). -/
def ErrCode.code : ErrCode → BitVec 4
  | .bufferTooSmall => 1
  | .nonCanonical => 2
  | .badOperand => 3
  | .illegalCommand => 4

/-- Whether an error completion sets the sticky STATUS.FAULT: codes 2, 3 and 4 (R168). -/
def ErrCode.sticky : ErrCode → Bool
  | .bufferTooSmall => false
  | .nonCanonical => true
  | .badOperand => true
  | .illegalCommand => true

/-- STATUS.BUSY, bit 0 (R24). -/
def busyBit (st : Word32) : Bool := st.getLsbD 0

/-- STATUS.DONE, bit 1 (R24). -/
def doneBit (st : Word32) : Bool := st.getLsbD 1

/-- STATUS.FAULT, bit 2 (R24). -/
def faultBit (st : Word32) : Bool := st.getLsbD 2

/-- STATUS.ERR, bits 7:4 (R24). -/
def errField (st : Word32) : BitVec 4 := st.extractLsb' 4 4

/-- The reserved bits of STATUS, bit 3 and bits 31:8 (R24), in their places. -/
def reservedBits (st : Word32) : Word32 := st &&& 0xFFFFFF08#32

/-- Writes one bit of a status word. -/
def setBit (st : Word32) (k : Nat) (b : Bool) : Word32 :=
  if b then st ||| 1#32 <<< k else st &&& ~~~(1#32 <<< k)

/-- Writes STATUS.ERR. -/
def setErr (st : Word32) (e : BitVec 4) : Word32 := (st &&& ~~~0x000000F0#32) ||| (e.setWidth 32 <<< 4)

/-- STATUS after a CMD write (R23): BUSY set, DONE cleared, FAULT and ERR as they were (R24). -/
def startedStatus (st : Word32) : Word32 := setBit (setBit st 0 true) 1 false

/-- BUSY cleared and DONE set, the end of both completions (R166, R167). -/
def endedStatus (st : Word32) : Word32 := setBit (setBit st 0 false) 1 true

/-- STATUS after an error completion (R166, R168). -/
def raisedStatus (e : ErrCode) (st : Word32) : Word32 :=
  endedStatus (setBit (setErr st e.code) 2 (faultBit st || e.sticky))

/-- STATUS after a successful completion (R167): FAULT unchanged. -/
def succeededStatus (st : Word32) : Word32 := endedStatus (setErr st 0)

end Sys2Proof.Machine
end

