-- ==== Sys2Proof/Machine/Operands.lean ====
section
/-!
DEFINITION. The value-level operands of the commands (spec/00_scope.md R12 to R15): bytes of a word, leading zero bytes,
the integer a word sequence denotes, and the minimal big-endian encoding of an integer.
-/
namespace Sys2Proof.Machine

/-- `byte(w, b)` = `w[8*b+7 : 8*b]` (R12). -/
def byte (w : Word) (b : Nat) : Byte := w.extractLsb' (8 * b) 8

/-- The number of zero bytes at the top of the low `k` bytes of `w`. -/
def leadingZeroBytes : (k : Nat) → (w : Word) → Nat
  | 0, _ => 0
  | k + 1, w => if byte w k = 0 then leadingZeroBytes k w + 1 else 0

/-- `lzb(w)` of a W-bit word (R14). How hardware finds it is not observable (R112). -/
def lzb (c : Config) (w : Word) : Nat := leadingZeroBytes c.B w

/-- The low `k` bytes of `w`, most significant first: `byte(w, k-1)` down to `byte(w, 0)` (R102, the `for b` loops). -/
def lowBytes : (k : Nat) → (w : Word) → List Byte
  | 0, _ => []
  | k + 1, w => byte w k :: lowBytes k w

/-- A value cut to the W data lines of the MAG port (R52; log 8). -/
def toPortWidth (c : Config) (v : Word) : Word := BitVec.ofNat 256 (v.toNat % 2 ^ c.W)

/-- `val(n)` over word contents `m` (R13): the sum of `m i * 2^(W*i)` for `i < n`. -/
def val (c : Config) (m : Nat → Word) : (n : Nat) → Nat
  | 0 => 0
  | n + 1 => val c m n + (m n).toNat * 2 ^ (c.W * n)

/-- `minLen(v)` (R15): 0 for 0, otherwise the least `L` with `v < 2^(8*L)`. -/
def minLen (v : Nat) : Nat := if v = 0 then 0 else v.log2 / 8 + 1

/-- `be(v)[j]` for `j < minLen(v)` (R15): byte `j`, from the most significant end, of the minimal encoding. -/
def be (v j : Nat) : Byte := BitVec.ofNat 8 (v / 2 ^ (8 * (minLen v - 1 - j)))

end Sys2Proof.Machine
end

