-- ==== Sys2Proof/Machine/Ops.lean ====
section
/-!
DEFINITION. The named operations over storage and registers: reads and writes of the stores (spec/20_memory.md R52 to
R54), the CSR map (spec/10_state.md R22 to R29, R35), starting a command (R23), the two completions
(spec/60_exceptions.md R166, R167), and reset (spec/70_reset_and_hazards.md R190, R191).
-/
namespace Sys2Proof.Machine

/-! ### Storage: lists of (index, value) in one canonical form -/

/-- The value a store lists at an index; an index it does not list is unwritten and has no value (R33). -/
def Store.read {α : Type} : List (Nat × α) → Nat → Option α
  | [], _ => none
  | (a, v) :: rest, i => if a = i then some v else Store.read rest i

/-- Writes a value at an index, keeping the indices strictly rising. -/
def Store.write {α : Type} : List (Nat × α) → Nat → α → List (Nat × α)
  | [], i, v => [(i, v)]
  | (a, x) :: rest, i, v =>
    if i < a then (i, v) :: (a, x) :: rest
    else if i = a then (i, v) :: rest
    else (a, x) :: Store.write rest i v

/-- Writes a list of values at consecutive indices. -/
def Store.writeAll {α : Type} : List (Nat × α) → Nat → List α → List (Nat × α)
  | st, _, [] => st
  | st, i, v :: vs => Store.writeAll (Store.write st i v) (i + 1) vs

/-- The indices of a store are strictly rising and at least `lo`. -/
def Store.risingFrom {α : Type} : Nat → List (Nat × α) → Bool
  | _, [] => true
  | lo, (a, _) :: rest => decide (lo ≤ a) && Store.risingFrom (a + 1) rest

/-- The canonical form of storage: strictly rising indices. (An unlisted location has no value, so no entry can equal
what an unlisted one reads as.) -/
def Memory.wf (m : Memory) : Bool := Store.risingFrom 0 m.mag && Store.risingFrom 0 m.buf

/-- Storage holds only what the build has: MAG words of W bits below MAX_WORDS (R30), BUF bytes below BUF_BYTES (R31). -/
def Memory.fits (c : Config) (m : Memory) : Bool :=
  m.mag.all (fun p => decide (p.1 < c.maxWords) && decide (p.2.toNat < 2 ^ c.W)) &&
    m.buf.all (fun p => decide (p.1 < c.bufBytes))

/-- `MagRead(i)` (R16): no value if nothing wrote the word since reset (R33). -/
def magRead (s : State) (i : Nat) : Option Word := Store.read s.mem.mag i

/-- `BufRead(j)` (R16): no value if nothing wrote the byte since reset (R33). -/
def bufRead (s : State) (j : Nat) : Option Byte := Store.read s.mem.buf j

/-- `MagWrite(i, v)` (R16, R52): the whole word. -/
def magWrite (i : Nat) (v : Word) (s : State) : State :=
  { s with mem := { s.mem with mag := Store.write s.mem.mag i v } }

/-- `BufWrite(j, v)` (R16, R53): one byte. -/
def bufWrite (j : Nat) (v : Byte) (s : State) : State :=
  { s with mem := { s.mem with buf := Store.write s.mem.buf j v } }

/-- `BufWrite` of consecutive bytes from `BUF[0]` on (R102, R107). -/
def bufWriteAll (bs : List Byte) (s : State) : State :=
  { s with mem := { s.mem with buf := Store.writeAll s.mem.buf 0 bs } }

/-! ### Registers -/

/-- CONFIG0 (R28): `[8:0] = W`, `[15:9] = 0`, `[31:16] = MAX_WORDS`. -/
def config0 (c : Config) : Word32 := BitVec.ofNat 32 (c.maxWords * 2 ^ 16 + c.W)

/-- CONFIG1 (R29): BUF_BYTES. -/
def config1 (c : Config) : Word32 := BitVec.ofNat 32 c.bufBytes

/-- A CSR read (R22, R51): CMD reads 0 (R23); reserved offsets, and offsets that are not a multiple of 4, read 0 (R35).
No read has a side effect (R62). -/
def csrRead (off : BitVec 8) (s : State) : Word32 :=
  if off = 0x04 then s.status
  else if off = 0x08 then s.magLen
  else if off = 0x0C then s.bufCap
  else if off = 0x10 then s.result
  else if off = 0x14 then config0 s.cfg
  else if off = 0x18 then config1 s.cfg
  else 0x00000000

/-- A write of `c` to CMD while no command is pending (R23): the command is latched and pending. -/
def startCommand (c : Word32) (s : State) : State :=
  { s with cmdlat := c, pending := true, status := startedStatus s.status }

/-- A CSR write (R22, R51): CMD starts a command (R23); MAG_LEN and BUF_CAP store all 32 bits (R25, R26); a write to a
read-only register or to a reserved offset is ignored (R24, R27 to R29, R35, R62). -/
def csrWrite (off : BitVec 8) (v : Word32) (s : State) : State :=
  if off = 0x00 then startCommand v s
  else if off = 0x08 then { s with magLen := v }
  else if off = 0x0C then { s with bufCap := v }
  else s

/-! ### The operands of a command -/

/-- `inBounds` (R34): `MAG_LEN <= MAX_WORDS`. -/
def inBounds (s : State) : Bool := decide (s.magLen.toNat ≤ s.cfg.maxWords)

/-- What the read of the most significant word finds (R34 `canonical`; R102, R131, R141). -/
inductive TopWord where
  /-- `MAG_LEN = 0`: there is no word, the magnitude is zero. -/
  | empty
  /-- Nothing has written the word since reset. -/
  | unwritten
  /-- The word is 0: the magnitude is not canonical. -/
  | zero
  /-- The word is `t`, not 0: the magnitude is canonical. -/
  | word (t : Word)
deriving DecidableEq, Repr

/-- The read of `MAG[MAG_LEN - 1]`, evaluated only in bounds (R34). -/
def topWord (s : State) : TopWord :=
  match s.magLen.toNat with
  | 0 => .empty
  | n + 1 =>
    match magRead s n with
    | none => .unwritten
    | some t => if t = 0 then .zero else .word t

/-- The words `MAG[k-1]` down to `MAG[0]`, if every one has been written (R102 step 4; R113). -/
def wordsBelow (s : State) : (k : Nat) → Option (List Word)
  | 0 => some []
  | k + 1 =>
    match magRead s k, wordsBelow s k with
    | some w, some ws => some (w :: ws)
    | _, _ => none

/-- The loop `while m > 0 and MagRead(m-1) = 0: m <- m - 1` of R141, from `m = k`: the length without the zero words at
the top, if every word it reads has been written. -/
def lengthWithoutTopZeros (s : State) : (k : Nat) → Option Nat
  | 0 => some 0
  | k + 1 =>
    match magRead s k with
    | none => none
    | some w => if w = 0 then lengthWithoutTopZeros s k else some (k + 1)

/-! ### How a command ends -/

/-- `raise E` (R166): RESULT 0, the code in STATUS.ERR, FAULT if the code is sticky, BUSY and PENDING cleared, DONE set,
and nothing else written. It is the block's whole exception entry: there is no trap (R160, R172) and so no return
(R173). -/
def raise (e : ErrCode) (s : State) : State :=
  { s with result := 0x00000000, status := raisedStatus e s.status, pending := false }

/-- `csr[RESULT] <- v` (R27). -/
def setResult (v : Word32) (s : State) : State := { s with result := v }

/-- `csr[MAG_LEN] <- n` by the core (R25, R143). -/
def setMagLen (n : Word32) (s : State) : State := { s with magLen := n }

/-- `complete` (R167): ERR 0, BUSY and PENDING cleared, DONE set, FAULT unchanged. -/
def complete (s : State) : State := { s with status := succeededStatus s.status, pending := false }

/-! ### Reset -/

/-- The reset input (R190, R191): every CSR its reset value, nothing pending, no storage written; the build is constant.
What is not the block's, the host's program, the schedule and the replies, stays (log 10). -/
def assertReset (s : State) : State :=
  { State.resetOf s.cfg with host := s.host, sched := s.sched, replies := s.replies }

end Sys2Proof.Machine
end

