-- ==== Sys2Proof/Machine/Marshal.lean ====
section
/-!
DEFINITION. MARSHAL, the ByteMarshaller (spec/40_byte_marshaller.md R100 to R116).
-/
namespace Sys2Proof.Machine

/-- L = `n*B - lzb(t)`, the minimal length of a magnitude of `n` words with top word `t` (R102). -/
def encodedLength (c : Config) (n : Nat) (t : Word) : Nat := n * c.B - lzb c t

/-- The bytes MARSHAL emits (R102 steps 3 and 4): the top word `t` without its leading zero bytes, then every byte of
every lower word, zero bytes included (R110). -/
def encodedBytes (c : Config) (t : Word) (lower : List Word) : List Byte :=
  lowBytes (c.B - lzb c t) t ++ lower.flatMap (lowBytes c.B)

/-- MARSHAL of an in-bounds magnitude whose most significant word is `t`, not 0 (R102, R103, R107, R113). -/
def marshalWords (t : Word) (s : State) : Result :=
  let n := s.magLen.toNat
  let len := encodedLength s.cfg n t
  if s.bufCap.toNat < len then .next (raise .bufferTooSmall s)
  else
    match wordsBelow s (n - 1) with
    | none => .fault .unwrittenRead
    | some lower =>
      .next (complete (setResult (BitVec.ofNat 32 len) (bufWriteAll (encodedBytes s.cfg t lower) s)))

/-- MARSHAL (R102). The checks stand in the order of R170. -/
def execMarshal (s : State) : Result :=
  if s.cfg.maxWords < s.magLen.toNat then .next (raise .badOperand s)
  else if s.cfg.bufBytes < s.bufCap.toNat then .next (raise .badOperand s)
  else
    match topWord s with
    | .empty => .next (complete (setResult 0x00000000 s))
    | .unwritten => .fault .unwrittenRead
    | .zero => .next (raise .nonCanonical s)
    | .word t => marshalWords t s

end Sys2Proof.Machine
end

