-- ==== Sys2Proof/Machine/MaxLength.lean ====
section
/-!
DEFINITION. MAXLEN, the Maximum-Length Estimator (spec/41_max_length_estimator.md R130 to R135).
-/
namespace Sys2Proof.Machine

/-- `csr[RESULT] <- n * B` and success (R131). -/
def completeMaxlen (s : State) : State :=
  complete (setResult (BitVec.ofNat 32 (s.magLen.toNat * s.cfg.B)) s)

/-- MAXLEN (R131). -/
def execMaxlen (s : State) : Result :=
  if s.cfg.maxWords < s.magLen.toNat then .next (raise .badOperand s)
  else
    match topWord s with
    | .empty => .next (completeMaxlen s)
    | .unwritten => .fault .unwrittenRead
    | .zero => .next (raise .nonCanonical s)
    | .word _ => .next (completeMaxlen s)

end Sys2Proof.Machine
end

