-- ==== Sys2Proof/Machine/Truncate.lean ====
section
/-!
DEFINITION. TRUNC256, the WidthTruncator (spec/42_width_truncator.md R140 to R150).
-/
namespace Sys2Proof.Machine

/-- TRUNC256 of an in-bounds canonical magnitude (R141): with more than K words, keep the low K (R142) and drop the zero
words at their top (R143); otherwise no change. No MAG word is written (R146). -/
def truncateWords (s : State) : Result :=
  if s.cfg.K < s.magLen.toNat then
    match lengthWithoutTopZeros s s.cfg.K with
    | none => .fault .unwrittenRead
    | some m => .next (complete (setResult 0x00000000 (setMagLen (BitVec.ofNat 32 m) s)))
  else .next (complete (setResult 0x00000000 s))

/-- TRUNC256 (R141). -/
def execTrunc256 (s : State) : Result :=
  if s.cfg.maxWords < s.magLen.toNat then .next (raise .badOperand s)
  else
    match topWord s with
    | .empty => truncateWords s
    | .unwritten => .fault .unwrittenRead
    | .zero => .next (raise .nonCanonical s)
    | .word _ => truncateWords s

end Sys2Proof.Machine
end

