-- ==== Sys2Proof/Machine/Dispatch.lean ====
section
/-!
DEFINITION. One arm per command: its meaning (spec/opcode_table.json; spec/70_reset_and_hazards.md R196).
-/
namespace Sys2Proof.Machine

def exec (i : Instr) (s : State) : Host.Outcome State Fault Refusal :=
  match i with
  | .marshal => Sys2Proof.Machine.execMarshal s
  | .maxlen => Sys2Proof.Machine.execMaxlen s
  | .trunc256 => Sys2Proof.Machine.execTrunc256 s

end Sys2Proof.Machine
end

