-- ==== Sys2Proof/Machine/HostPort.lean ====
section
/-!
DEFINITION. The host port: one access at a time over the three spaces (spec/20_memory.md R50 to R54, R61, R62), its
hazard rule (spec/70_reset_and_hazards.md R197), and the assembler's forms (spec/30_encoding.md R77 to R79).
-/
namespace Sys2Proof.Machine

/-- A reserved CSR offset, or one that is not a multiple of 4 (R35). -/
def reservedOffset (off : BitVec 8) : Bool := decide (0x1C ≤ off.toNat) || decide (off.toNat % 4 ≠ 0)

/-- The accesses R197 permits while BUSY: a read of STATUS, of CONFIG0, of CONFIG1 or of a reserved offset. Every other
access is a host hazard (log 7). -/
def HostAccess.allowedWhileBusy : HostAccess → Bool
  | .csrw _ _ => false
  | .csrr off => off = 0x04 || off = 0x14 || off = 0x18 || reservedOffset off
  | .magw _ _ => false
  | .magr _ => false
  | .bufw _ _ => false
  | .bufr _ => false

/-- Hands a read's value to the host (R68). -/
def reply (r : Reply) (s : State) : State := { s with replies := r :: s.replies }

/-- A host write of a word (R52): ignored at an index the build does not have (R54). -/
def hostMagWrite (i : BitVec 16) (v : Word) (s : State) : State :=
  if i.toNat < s.cfg.maxWords then magWrite i.toNat (toPortWidth s.cfg v) s else s

/-- A host read of a word: all zeros at an index the build does not have (R54); UNWRITTEN_READ if nothing has written
the word (R33). -/
def hostMagRead (i : BitVec 16) (s : State) : Result :=
  if i.toNat < s.cfg.maxWords then
    match magRead s i.toNat with
    | none => .fault .unwrittenRead
    | some v => .next (reply (.mag i v) s)
  else .next (reply (.mag i 0) s)

/-- A host write of a byte (R53): ignored at an index the build does not have (R54). -/
def hostBufWrite (j : BitVec 32) (v : Byte) (s : State) : State :=
  if j.toNat < s.cfg.bufBytes then bufWrite j.toNat v s else s

/-- A host read of a byte: zero at an index the build does not have (R54); UNWRITTEN_READ if nothing has written the
byte (R33). -/
def hostBufRead (j : BitVec 32) (s : State) : Result :=
  if j.toNat < s.cfg.bufBytes then
    match bufRead s j.toNat with
    | none => .fault .unwrittenRead
    | some v => .next (reply (.buf j v) s)
  else .next (reply (.buf j 0) s)

/-- One access when no hazard forbids it (R51 to R53). -/
def performAccess (a : HostAccess) (s : State) : Result :=
  match a with
  | .csrw off v => .next (csrWrite off v s)
  | .csrr off => .next (reply (.csr off (csrRead off s)) s)
  | .magw i v => .next (hostMagWrite i v s)
  | .magr i => hostMagRead i s
  | .bufw j v => .next (hostBufWrite j v s)
  | .bufr j => hostBufRead j s

/-- One host-port access: HOST_RACE if R197 forbids it now (R182), its effect otherwise. -/
def hostAccess (a : HostAccess) (s : State) : Result :=
  if busyBit s.status && !a.allowedWhileBusy then .fault .hostRace else performAccess a s

/-- The host's move: the next statement of its program. `wait` reads STATUS once and is done when bit 0 of the value
read is 0; otherwise it stands at the head again (R79; log 11). A host that has run its last statement does nothing. -/
def hostTurn (s : State) : Result :=
  match s.host with
  | [] => .next s
  | .access a :: rest => hostAccess a { s with host := rest }
  | .wait :: rest =>
    if busyBit (csrRead 0x04 s) then hostAccess (.csrr 0x04) s else hostAccess (.csrr 0x04) { s with host := rest }

/-! ### The assembler -/

/-- The least `n` with `v < 2^(W*n)` (R79 `setmag`). -/
def wordCount (c : Config) (v : Nat) : Nat := if v = 0 then 0 else v.log2 / c.W + 1

/-- `magw i, (v / 2^(W*i)) mod 2^W` for `i = 0 .. n-1` (R79). -/
def setmagWrites (c : Config) (v n : Nat) : List HostStmt :=
  (List.range n).map fun i => .access (.magw (BitVec.ofNat 16 i) (BitVec.ofNat 256 (v / 2 ^ (c.W * i) % 2 ^ c.W)))

/-- `csrw CMD, <the command's word>` (R77, R79). -/
def issue (i : Instr) : HostStmt := .access (.csrw 0x00 (encode i))

/-- What a line of host assembly stands for (R77, R79). -/
def AsmLine.expand (c : Config) : AsmLine → List HostStmt
  | .access a => [.access a]
  | .command i => [issue i]
  | .rawCommand w => [.access (.csrw 0x00 w)]
  | .wait => [.wait]
  | .setmag v =>
    setmagWrites c v (wordCount c v) ++ [.access (.csrw 0x08 (BitVec.ofNat 32 (wordCount c v)))]
  | .run i => [issue i, .wait]

/-- A host program (R78): its lines in order. -/
def assemble (c : Config) (lines : List AsmLine) : List HostStmt := lines.flatMap (AsmLine.expand c)

end Sys2Proof.Machine
end

