-- ==== Sys2Proof/Machine/Agents.lean ====
section
/-!
DEFINITION. The agents' moves (spec/00_scope.md R17): the core's step (spec/70_reset_and_hazards.md R196), whose turn it
is, and the placing of a command word where the core takes its next one.
-/
namespace Sys2Proof.Machine

/-- The core performs the word in CMDLAT (R81, R196): the command it decodes to, or an ILLEGAL_COMMAND error that reads no
operand (R74, R165). -/
def performCommand (s : State) : Result :=
  match decode s.cmdlat with
  | .command i => exec i s
  | .illegal _ => .next (raise .illegalCommand s)

/-- The core's move: it has an enabled step exactly when PENDING = 1 (R196); otherwise the block is idle (R181). -/
def coreTurn (s : State) : Result := if s.pending then performCommand s else .next s

/-- One agent's move. -/
def takeTurn (t : Turn) (s : State) : Result :=
  match t with
  | .host => hostTurn s
  | .core => coreTurn s
  | .reset => .next (assertReset s)

/-- The next move of the machine: the schedule's next turn. When the schedule has run out, a pending command is performed
before the host goes on, so that every run is fair (R200; log 4). -/
def nextMove (s : State) : Result :=
  match s.sched with
  | [] => if s.pending then coreTurn s else hostTurn s
  | t :: rest => takeTurn t { s with sched := rest }

/-- The command word `c` placed as a CMD write places it (R23), with the core to move next (log 5). -/
def placeCommand (c : Word32) (s : State) : State := { startCommand c s with sched := .core :: s.sched }

end Sys2Proof.Machine
end

