-- ==== Sys2Proof/Machine/Step.lean ====
section
/-!
DEFINITION. One step of the machine, one agent's atomic move (spec/00_scope.md R17, spec/20_memory.md R61).
-/
namespace Sys2Proof.Machine

/-- One step: the move of the agent whose turn it is. -/
def step (s : State) : Host.Outcome State Fault Refusal := nextMove s

/-- `s` with the command word that `nbits` bits of value `w` make placed where the core takes its next command (R23,
R32), so that the very next step is the core's step on it (log 5). -/
def State.withFetchWord (s : State) (nbits w : Nat) : State := placeCommand (tableWord nbits w) s

end Sys2Proof.Machine
end

