-- ==== Sys2Proof/Safety.lean ====
section
/-!
DEFINITION. The terms claims use: the invariant of every reachable state, how a command ends, what it means that the
host has presented a magnitude, whose turn it is, and the end of a run.
-/
namespace Sys2Proof.Machine

/-- What holds in every reachable state. -/
structure State.Inv (s : State) : Prop where
  /-- The build is a legal one (R6, R9, R10). -/
  legal : s.cfg.legal = true
  /-- Storage is in canonical form (log 3). -/
  wf : s.mem.wf = true
  /-- Storage holds only words and bytes the build has (R30, R31). -/
  fits : s.mem.fits s.cfg = true
  /-- `STATUS.BUSY` always equals PENDING (R32). -/
  busy_eq_pending : busyBit s.status = s.pending
  /-- `STATUS.DONE` is 1 only until the next CMD write (R24). -/
  busy_not_done : busyBit s.status = true → doneBit s.status = false
  /-- The reserved bits of STATUS read 0 (R24). -/
  reserved_zero : reservedBits s.status = 0
  /-- `STATUS.ERR` never holds 5 to 15 (R169). -/
  err_le_four : (errField s.status).toNat ≤ 4
  /-- A code 2, 3 or 4 has set the sticky `STATUS.FAULT` (R168). -/
  fault_of_err : 2 ≤ (errField s.status).toNat → faultBit s.status = true
  /-- A command that ended in an error left 0 in RESULT (R27). -/
  result_zero_of_err : errField s.status ≠ 0 → s.result = 0

/-- The error completion of R166 between the state before a command and the state after it: RESULT 0, the code in ERR,
FAULT set by codes 2, 3, 4 and kept otherwise, BUSY and PENDING 0, DONE 1, and every other bit and field as before. -/
structure EndsInError (e : ErrCode) (s t : State) : Prop where
  result : t.result = 0
  err : errField t.status = e.code
  fault : faultBit t.status = (faultBit s.status || (e.code == 2 || e.code == 3 || e.code == 4))
  busy : busyBit t.status = false
  done : doneBit t.status = true
  pending : t.pending = false
  reserved : reservedBits t.status = reservedBits s.status
  frame : t = { s with result := t.result, status := t.status, pending := t.pending }

/-- The successful completion of R167, on STATUS and PENDING: ERR 0, FAULT unchanged, BUSY and PENDING 0, DONE 1, the
reserved bits unchanged. -/
structure EndsInSuccess (s t : State) : Prop where
  err : errField t.status = 0
  fault : faultBit t.status = faultBit s.status
  busy : busyBit t.status = false
  done : doneBit t.status = true
  pending : t.pending = false
  reserved : reservedBits t.status = reservedBits s.status

/-- The host has presented the magnitude of words `m` (R194 steps 1 and 2): MAG_LEN words, no more than MAX_WORDS, all
written, each of W bits, the last one not 0. -/
structure PresentsMagnitude (s : State) (m : Nat → Word) : Prop where
  in_bounds : s.magLen.toNat ≤ s.cfg.maxWords
  written : ∀ i, i < s.magLen.toNat → magRead s i = some (m i)
  width : ∀ i, i < s.magLen.toNat → (m i).toNat < 2 ^ s.cfg.W
  canonical : 0 < s.magLen.toNat → m (s.magLen.toNat - 1) ≠ 0

/-- The integer the presented words denote: `val(MAG_LEN)` (R13). -/
def valueOf (s : State) (m : Nat → Word) : Nat := val s.cfg m s.magLen.toNat

/-- The next move from `s` is the core's, made on `s1`: the schedule says so, or it has run out and a command is
pending (log 4). -/
def CoreToMove (s s1 : State) : Prop :=
  (∃ rest, s.sched = .core :: rest ∧ s1 = { s with sched := rest }) ∨ (s.sched = [] ∧ s.pending = true ∧ s1 = s)

/-- The next move from `s` is the host's, made on `s1` (log 4). -/
def HostToMove (s s1 : State) : Prop :=
  (∃ rest, s.sched = .host :: rest ∧ s1 = { s with sched := rest }) ∨ (s.sched = [] ∧ s.pending = false ∧ s1 = s)

/-- A run of the host program has ended (R201): its last statement has run and PENDING = 0. -/
def State.ended (s : State) : Bool := s.host.isEmpty && !s.pending

/-- What is observed of a run that has ended (R201): the CSRs, and the MAG words and BUF bytes written since reset. -/
structure EndState where
  status  : Word32
  magLen  : Word32
  bufCap  : Word32
  result  : Word32
  config0 : Word32
  config1 : Word32
  mem     : Memory
deriving DecidableEq, Repr

/-- The observed end state, defined only of a run that has ended (R201). -/
def State.endState (s : State) : Option EndState :=
  if s.ended then
    some { status := s.status, magLen := s.magLen, bufCap := s.bufCap, result := s.result, config0 := config0 s.cfg,
           config1 := config1 s.cfg, mem := s.mem }
  else none

end Sys2Proof.Machine
end

