-- ==== Sys2Proof/Certificates/Slice0/Obligations.lean ====
section
/-!
DEFINITION. The statements about the machine, one definition each. Every statement is for every build of the block (W,
MAX_WORDS and BUF_BYTES are in the state). The docstrings name the rule of spec/ a statement formalises.
-/

open Sys2Proof Sys2Proof.Machine

/-! ### Encoding -/

/-- R72: a word selects a command only when all its 32 bits equal that command's word. -/
def Obligations.DecodeSelectsExactlyTheTableWords : Prop :=
  ∀ c : Word32,
    (decode c = .command .marshal ↔ c = 0x00000001) ∧
    (decode c = .command .maxlen ↔ c = 0x00000002) ∧
    (decode c = .command .trunc256 ↔ c = 0x00000003)

/-- Decoder and encoder agree in both directions (R70 to R72, R81). -/
def Obligations.DecodeInvertsEncode : Prop :=
  ∀ (c : Word32) (i : Instr), decode c = .command i ↔ c = encode i

/-- A word is illegal exactly when OP (bits 3:0) is 0x0 or 0x4 to 0xF, or RSV (bits 31:4) is not 0 (R74, R81). -/
def Obligations.IllegalWordsAreReservedOpOrRsv : Prop :=
  ∀ c : Word32, (∃ why, decode c = .illegal why) ↔
    (c.extractLsb' 0 4 = 0#4 ∨ 4 ≤ (c.extractLsb' 0 4).toNat ∨ c.extractLsb' 4 28 ≠ 0#28)

/-- Words written out from the spec's encoding (R72) and from its list of illegal words (R74), bit by bit. -/
def Obligations.SpecWordsDecode : Prop :=
  decode 0b00000000000000000000000000000001 = .command .marshal ∧
  decode 0b00000000000000000000000000000010 = .command .maxlen ∧
  decode 0b00000000000000000000000000000011 = .command .trunc256 ∧
  decode 0b00000000000000000000000000000000 = .illegal (.reservedOp 0x0) ∧
  decode 0b00000000000000000000000000010001 = .illegal (.reservedBits 0x0000001) ∧
  decode 0b11111111111111111111111111111111 = .illegal (.reservedOp 0xF)

/-! ### A step -/

/-- When the word in CMDLAT decodes to a command, PENDING = 1 and the core moves next, the step is that command's
meaning at the state with the turn taken (R196; the turns are the model's, log 4). -/
def Obligations.StepRunsTheDecodedCommand : Prop :=
  ∀ (s s1 : State) (i : Instr), decode s.cmdlat = .command i → s.pending = true → CoreToMove s s1 →
    step s = exec i s1

/-- A command word placed where the core takes its next one is the one it runs (log 5). -/
def Obligations.PlacedWordRunsNext : Prop :=
  ∀ (s : State) (i : Instr), step (s.withFetchWord 32 (encode i).toNat) = exec i (startCommand (encode i) s)

/-- Every step is one agent's move: the host's, the core's, or the reset input (R17, R196, R190). Which agent's, is the
model's schedule (log 4). -/
def Obligations.StepIsTheMoversTurn : Prop :=
  ∀ s s1 : State,
    (HostToMove s s1 → step s = takeTurn .host s1) ∧ (CoreToMove s s1 → step s = takeTurn .core s1) ∧
    (∀ rest, s.sched = .reset :: rest → step s = takeTurn .reset { s with sched := rest })

/-- R196: the core has an enabled step exactly when PENDING = 1; that step performs the command CMDLAT decodes to, or the
ILLEGAL_COMMAND error, and ends with BUSY and PENDING 0 and DONE 1. With PENDING = 0 the core's turn changes nothing. -/
def Obligations.CoreStepPerformsPendingCommand : Prop :=
  ∀ s : State,
    (s.pending = false → coreTurn s = .next s) ∧
    (s.pending = true →
      (∀ i, decode s.cmdlat = .command i → coreTurn s = exec i s) ∧
      (∀ why, decode s.cmdlat = .illegal why → ∃ t, coreTurn s = .next t ∧ EndsInError .illegalCommand s t) ∧
      (∀ t, coreTurn s = .next t →
        busyBit t.status = false ∧ t.pending = false ∧ doneBit t.status = true))

/-- R74 and R165: an illegal word is performed as an ILLEGAL_COMMAND error, whatever the operands are. -/
def Obligations.IllegalWordEndsInIllegalCommand : Prop :=
  ∀ s : State, s.pending = true →
    (s.cmdlat.extractLsb' 0 4 = 0#4 ∨ 4 ≤ (s.cmdlat.extractLsb' 0 4).toNat ∨ s.cmdlat.extractLsb' 4 28 ≠ 0#28) →
    ∃ t, coreTurn s = .next t ∧ EndsInError .illegalCommand s t

/-- The host's turn makes the next access of its program, on the rest of the program (R17, R64, R78; the program in State
is the model's, log 5). -/
def Obligations.HostTurnMakesTheNextAccess : Prop :=
  ∀ (s : State) (a : HostAccess) (rest : List HostStmt), s.host = .access a :: rest →
    hostTurn s = hostAccess a { s with host := rest }

/-- `wait` (R79): the host reads STATUS, and goes on when bit 0 of the value read is 0 (one read a turn, log 11). -/
def Obligations.WaitPollsStatusUntilNotBusy : Prop :=
  ∀ (s : State) (rest : List HostStmt), s.host = .wait :: rest →
    (s.status.getLsbD 0 = true → hostTurn s = .next { s with replies := .csr 0x04 s.status :: s.replies }) ∧
    (s.status.getLsbD 0 = false →
      hostTurn s = .next { s with replies := .csr 0x04 s.status :: s.replies, host := rest })

/-- A run that has ended (R201) stays as it is: the block is idle between commands (R181), and nothing but a scheduled
reset could change it. -/
def Obligations.EndedRunStaysPut : Prop :=
  ∀ s : State, s.ended = true → s.sched = [] → step s = .next s

/-- The model refuses nothing, and a step faults only by the two faults of R182: UNWRITTEN_READ, and HOST_RACE on a host
turn while BUSY. -/
def Obligations.StepStopsOnlyByTheTwoModelFaults : Prop :=
  ∀ s : State, (∀ r, step s ≠ .refused r) ∧
    (step s = .fault .hostRace → ∃ s1, HostToMove s s1 ∧ busyBit s.status = true)

/-- The build never changes (R6, R28, R29). -/
def Obligations.StepKeepsTheBuild : Prop :=
  ∀ s t : State, step s = .next t → t.cfg = s.cfg

/-! ### The operands' notation -/

/-- R14: `lzb(w)` is the largest `z` up to B such that the top `z` bytes of the W-bit word `w` are zero; B for 0, at most
B - 1 otherwise. -/
def Obligations.LeadingZeroBytesIsTheLargestCount : Prop :=
  ∀ (c : Config) (w : Word), w.toNat < 2 ^ c.W →
    lzb c w ≤ c.B ∧ (∀ b, c.B - lzb c w ≤ b → b ≤ c.B - 1 → byte w b = 0) ∧
    (∀ z, z ≤ c.B → (∀ b, c.B - z ≤ b → b ≤ c.B - 1 → byte w b = 0) → z ≤ lzb c w) ∧
    (w = 0 → lzb c w = c.B) ∧ (w ≠ 0 → lzb c w ≤ c.B - 1)

/-- R15: `minLen(0) = 0`; for `v > 0`, `minLen(v)` is the smallest `L` with `v < 2^(8*L)`; `be(v)` lists the value's bytes,
most significant first. -/
def Obligations.MinLenIsTheSmallestLength : Prop :=
  ∀ v : Nat, minLen 0 = 0 ∧
    (0 < v → v < 2 ^ (8 * minLen v) ∧ ∀ l, v < 2 ^ (8 * l) → minLen v ≤ l) ∧
    (∀ j, j < minLen v → (be v j).toNat = v / 2 ^ (8 * (minLen v - 1 - j)) % 256)

/-! ### MARSHAL -/

/-- R102: MARSHAL, case by case in the order of its pseudocode. On success byte `j` of the output is byte `p % B` of
word `p / B`, where `p = L-1-j` counts from the value's least significant byte. -/
def Obligations.MarshalFollowsItsPseudocode : Prop :=
  ∀ s : State, s.cfg.legal = true →
    let n := s.magLen.toNat
    let cap := s.bufCap.toNat
    (s.cfg.maxWords < n → ∃ t, exec .marshal s = .next t ∧ EndsInError .badOperand s t) ∧
    (s.cfg.bufBytes < cap → ∃ t, exec .marshal s = .next t ∧ EndsInError .badOperand s t) ∧
    (n ≤ s.cfg.maxWords → cap ≤ s.cfg.bufBytes →
      (n = 0 → ∃ t, exec .marshal s = .next t ∧ EndsInSuccess s t ∧ t.result = 0 ∧
        t = { s with result := t.result, status := t.status, pending := t.pending }) ∧
      (0 < n → magRead s (n - 1) = none → exec .marshal s = .fault .unwrittenRead) ∧
      (0 < n → magRead s (n - 1) = some 0 → ∃ t, exec .marshal s = .next t ∧ EndsInError .nonCanonical s t) ∧
      (∀ w, 0 < n → magRead s (n - 1) = some w → w ≠ 0 →
        (cap < n * s.cfg.B - lzb s.cfg w → ∃ t, exec .marshal s = .next t ∧ EndsInError .bufferTooSmall s t) ∧
        (n * s.cfg.B - lzb s.cfg w ≤ cap →
          ((∃ i, i < n ∧ magRead s i = none) → exec .marshal s = .fault .unwrittenRead) ∧
          (∀ m : Nat → Word, (∀ i, i < n → magRead s i = some (m i)) →
            ∃ t, exec .marshal s = .next t ∧ EndsInSuccess s t ∧
              t.result.toNat = n * s.cfg.B - lzb s.cfg w ∧
              (∀ j, j < t.result.toNat →
                bufRead t j = some (byte (m ((t.result.toNat - 1 - j) / s.cfg.B))
                  ((t.result.toNat - 1 - j) % s.cfg.B))) ∧
              (∀ j, t.result.toNat ≤ j → bufRead t j = bufRead s j) ∧
              t = { s with mem := { s.mem with buf := t.mem.buf }, result := t.result,
                           status := t.status, pending := t.pending }))))

/-- R106 and R108: a MARSHAL that fits its buffer writes the minimal big-endian encoding of the value, and its length to
RESULT. -/
def Obligations.MarshalWritesTheMinimalEncoding : Prop :=
  ∀ (s : State) (m : Nat → Word), s.cfg.legal = true → PresentsMagnitude s m →
    s.bufCap.toNat ≤ s.cfg.bufBytes → minLen (valueOf s m) ≤ s.bufCap.toNat →
    ∃ t, exec .marshal s = .next t ∧ EndsInSuccess s t ∧
      t.result.toNat = minLen (valueOf s m) ∧
      (∀ j, j < minLen (valueOf s m) → bufRead t j = some (be (valueOf s m) j)) ∧
      (0 < minLen (valueOf s m) → ∃ b, bufRead t 0 = some b ∧ b ≠ 0) ∧
      (minLen (valueOf s m) = 0 ↔ s.magLen.toNat = 0) ∧
      minLen (valueOf s m) ≤ s.magLen.toNat * s.cfg.B ∧
      s.magLen.toNat * s.cfg.B ≤ s.cfg.maxWords * s.cfg.B ∧ s.cfg.maxWords * s.cfg.B < 2 ^ 32

/-- R109: MARSHAL, on success and on error, writes no MAG word, not MAG_LEN, not BUF_CAP and not CONFIG0 and CONFIG1; and
it leaves alone every BUF byte at RESULT and above, and all other state but RESULT, STATUS and PENDING. -/
def Obligations.MarshalLeavesTheRestAlone : Prop :=
  ∀ s t : State, s.cfg.legal = true → exec .marshal s = .next t →
    t.mem.mag = s.mem.mag ∧ t.magLen = s.magLen ∧ t.bufCap = s.bufCap ∧
    csrRead 0x14 t = csrRead 0x14 s ∧ csrRead 0x18 t = csrRead 0x18 s ∧
    (∀ j, t.result.toNat ≤ j → bufRead t j = bufRead s j) ∧
    t = { s with mem := { s.mem with buf := t.mem.buf }, result := t.result, status := t.status, pending := t.pending }

/-- R105: the zero magnitude is encoded as no byte, for every capacity up to BUF_BYTES. -/
def Obligations.MarshalOfZeroWritesNothing : Prop :=
  ∀ s : State, s.magLen = 0 → s.bufCap.toNat ≤ s.cfg.bufBytes →
    ∃ t, exec .marshal s = .next t ∧ EndsInSuccess s t ∧ t.result = 0 ∧
      t = { s with result := t.result, status := t.status, pending := t.pending }

/-- R103: BUFFER_TOO_SMALL exactly when the minimal encoding does not fit, and then no byte is written. -/
def Obligations.MarshalTooSmallExactlyWhenItDoesNotFit : Prop :=
  ∀ (s : State) (m : Nat → Word), s.cfg.legal = true → PresentsMagnitude s m → s.bufCap.toNat ≤ s.cfg.bufBytes →
    ∃ t, exec .marshal s = .next t ∧
      (errField t.status = ErrCode.bufferTooSmall.code ↔ s.bufCap.toNat < minLen (valueOf s m)) ∧
      (s.bufCap.toNat < minLen (valueOf s m) → EndsInError .bufferTooSmall s t)

/-! ### MAXLEN -/

/-- R131: MAXLEN, case by case in the order of its pseudocode. -/
def Obligations.MaxlenFollowsItsPseudocode : Prop :=
  ∀ s : State, s.cfg.legal = true →
    let n := s.magLen.toNat
    (s.cfg.maxWords < n → ∃ t, exec .maxlen s = .next t ∧ EndsInError .badOperand s t) ∧
    (n ≤ s.cfg.maxWords →
      (0 < n → magRead s (n - 1) = none → exec .maxlen s = .fault .unwrittenRead) ∧
      (0 < n → magRead s (n - 1) = some 0 → ∃ t, exec .maxlen s = .next t ∧ EndsInError .nonCanonical s t) ∧
      ((n = 0 ∨ ∃ w, magRead s (n - 1) = some w ∧ w ≠ 0) →
        ∃ t, exec .maxlen s = .next t ∧ EndsInSuccess s t ∧ t.result.toNat = n * s.cfg.B ∧
          t = { s with result := t.result, status := t.status, pending := t.pending }))

/-- R132: MAXLEN's value bounds the minimal length, overestimates it by at most B - 1, and a MARSHAL with that capacity
does not end in BUFFER_TOO_SMALL: it succeeds where BUF_BYTES allows the capacity and is BAD_OPERAND where not. -/
def Obligations.MaxlenBoundsTheMinimalLength : Prop :=
  ∀ (s : State) (m : Nat → Word), s.cfg.legal = true → PresentsMagnitude s m →
    let b := s.magLen.toNat * s.cfg.B
    minLen (valueOf s m) ≤ b ∧ b - minLen (valueOf s m) ≤ s.cfg.B - 1 ∧
    (b ≤ s.cfg.bufBytes →
      ∃ t, exec .marshal { s with bufCap := BitVec.ofNat 32 b } = .next t ∧ errField t.status = 0) ∧
    (s.cfg.bufBytes < b →
      ∃ t, exec .marshal { s with bufCap := BitVec.ofNat 32 b } = .next t ∧
        errField t.status = ErrCode.badOperand.code)

/-- R133: the bound is met exactly for the zero magnitude and for a top word whose top byte is not 0. -/
def Obligations.MaxlenIsExactWhenTopByteIsNonzero : Prop :=
  ∀ (s : State) (m : Nat → Word), s.cfg.legal = true → PresentsMagnitude s m →
    (minLen (valueOf s m) = s.magLen.toNat * s.cfg.B ↔
      s.magLen.toNat = 0 ∨ (0 < s.magLen.toNat ∧ byte (m (s.magLen.toNat - 1)) (s.cfg.B - 1) ≠ 0))

/-- R134: MAXLEN's corner cases. -/
def Obligations.MaxlenCornerCases : Prop :=
  ∀ s : State, s.cfg.legal = true →
    (s.magLen.toNat = 0 → ∃ t, exec .maxlen s = .next t ∧ EndsInSuccess s t ∧ t.result = 0) ∧
    (s.magLen.toNat = s.cfg.maxWords → (∃ w, magRead s (s.cfg.maxWords - 1) = some w ∧ w ≠ 0) →
      ∃ t, exec .maxlen s = .next t ∧ EndsInSuccess s t ∧ t.result.toNat = s.cfg.maxWords * s.cfg.B) ∧
    (s.magLen.toNat = s.cfg.maxWords + 1 →
      ∃ t, exec .maxlen s = .next t ∧ EndsInError .badOperand s t ∧ t.result = 0) ∧
    (0 < s.magLen.toNat → s.magLen.toNat ≤ s.cfg.maxWords → magRead s (s.magLen.toNat - 1) = some 0 →
      ∃ t, exec .maxlen s = .next t ∧ EndsInError .nonCanonical s t ∧ t.result = 0)

/-- R195: a host that sizes the buffer by MAXLEN gets the encoding from the MARSHAL that follows, never
BUFFER_TOO_SMALL. -/
def Obligations.SizingByMaxlenNeverTooSmall : Prop :=
  ∀ (s : State) (m : Nat → Word), s.cfg.legal = true → PresentsMagnitude s m →
    s.magLen.toNat * s.cfg.B ≤ s.cfg.bufBytes →
    ∃ t u, exec .maxlen s = .next t ∧ exec .marshal (csrWrite 0x0C t.result t) = .next u ∧
      errField u.status = 0 ∧ u.result.toNat = minLen (valueOf s m) ∧
      (∀ j, j < minLen (valueOf s m) → bufRead u j = some (be (valueOf s m) j))

/-! ### TRUNC256 -/

/-- R141: TRUNC256, case by case in the order of its pseudocode. -/
def Obligations.TruncFollowsItsPseudocode : Prop :=
  ∀ s : State,
    let n := s.magLen.toNat
    let k := s.cfg.K
    (s.cfg.maxWords < n → ∃ t, exec .trunc256 s = .next t ∧ EndsInError .badOperand s t) ∧
    (n ≤ s.cfg.maxWords →
      (0 < n → magRead s (n - 1) = none → exec .trunc256 s = .fault .unwrittenRead) ∧
      (0 < n → magRead s (n - 1) = some 0 → ∃ t, exec .trunc256 s = .next t ∧ EndsInError .nonCanonical s t) ∧
      ((n = 0 ∨ ∃ w, magRead s (n - 1) = some w ∧ w ≠ 0) →
        (n ≤ k → ∃ t, exec .trunc256 s = .next t ∧ EndsInSuccess s t ∧ t.result = 0 ∧
          t = { s with result := t.result, status := t.status, pending := t.pending }) ∧
        (k < n → ∀ i, i < k → (∀ j, i < j → j < k → magRead s j = some 0) → magRead s i = none →
          exec .trunc256 s = .fault .unwrittenRead) ∧
        (k < n → ∀ i, i ≤ k → (∀ j, i ≤ j → j < k → magRead s j = some 0) →
          (i = 0 ∨ ∃ w, magRead s (i - 1) = some w ∧ w ≠ 0) →
          ∃ t, exec .trunc256 s = .next t ∧ EndsInSuccess s t ∧ t.result = 0 ∧ t.magLen.toNat = i ∧
            t = { s with magLen := t.magLen, result := t.result, status := t.status, pending := t.pending })))

/-- R144: a successful TRUNC256 leaves the value modulo 2^256, which is the value AND (2^256 - 1), whatever `m` the
unwritten words hold. -/
def Obligations.TruncLeavesTheValueModulo2Pow256 : Prop :=
  ∀ (s t : State) (m : Nat → Word), (∀ i, (m i).toNat < 2 ^ s.cfg.W) → (∀ i w, magRead s i = some w → m i = w) →
    exec .trunc256 s = .next t → errField t.status = 0 →
    valueOf t m = valueOf s m % 2 ^ 256 ∧ valueOf t m = valueOf s m &&& (2 ^ 256 - 1)

/-- R143: with more than K words, TRUNC256 leaves MAG_LEN at the number of kept words without the zero words at their
top: the magnitude is canonical and has at most K words. -/
def Obligations.TruncResultIsCanonical : Prop :=
  ∀ s t : State, exec .trunc256 s = .next t → errField t.status = 0 → s.cfg.K < s.magLen.toNat →
    t.magLen.toNat ≤ s.cfg.K ∧
    (∀ j, t.magLen.toNat ≤ j → j < s.cfg.K → magRead s j = some 0) ∧
    (t.magLen.toNat = 0 ∨ ∃ w, magRead t (t.magLen.toNat - 1) = some w ∧ w ≠ 0)

/-- R145: after a TRUNC256 the magnitude has at most K words and a second TRUNC256 changes nothing at all. -/
def Obligations.TruncIsIdempotent : Prop :=
  ∀ s t : State, exec .trunc256 s = .next t → errField t.status = 0 →
    t.magLen.toNat ≤ t.cfg.K ∧ exec .trunc256 t = .next t

/-- R146: TRUNC256 writes only MAG_LEN, and that only with more than K words, RESULT, STATUS and PENDING; every MAG word
keeps its stored value. -/
def Obligations.TruncWritesOnlyTheLength : Prop :=
  ∀ s t : State, exec .trunc256 s = .next t →
    t = { s with magLen := t.magLen, result := 0, status := t.status, pending := t.pending } ∧
    (s.magLen.toNat ≤ s.cfg.K → t.magLen = s.magLen)

/-- R147: TRUNC256 of an in-bounds canonical magnitude succeeds; outside that domain it is BAD_OPERAND or
NONCANONICAL. -/
def Obligations.TruncSucceedsOnPresentedMagnitudes : Prop :=
  ∀ s : State,
    (∀ m, PresentsMagnitude s m → ∃ t, exec .trunc256 s = .next t ∧ EndsInSuccess s t) ∧
    (s.cfg.maxWords < s.magLen.toNat → ∃ t, exec .trunc256 s = .next t ∧ EndsInError .badOperand s t) ∧
    (0 < s.magLen.toNat → s.magLen.toNat ≤ s.cfg.maxWords → magRead s (s.magLen.toNat - 1) = some 0 →
      ∃ t, exec .trunc256 s = .next t ∧ EndsInError .nonCanonical s t)

/-! ### Every command -/

/-- R160, R166 and R167: a command that ends, an illegal word among them, ends in exactly one of two ways. -/
def Obligations.CommandsEndInSuccessOrOneError : Prop :=
  ∀ s t : State, s.pending = true → coreTurn s = .next t →
    (EndsInSuccess s t ∧ ¬ ∃ e, EndsInError e s t) ∨ (¬ EndsInSuccess s t ∧ ∃ e, EndsInError e s t)

/-- R164: BAD_OPERAND of all three commands, and of MARSHAL for its capacity too with any MAG_LEN. -/
def Obligations.OutOfRangeOperandsAreBadOperand : Prop :=
  ∀ s : State,
    (∀ i, s.cfg.maxWords < s.magLen.toNat → ∃ t, exec i s = .next t ∧ EndsInError .badOperand s t) ∧
    (s.cfg.bufBytes < s.bufCap.toNat → ∃ t, exec .marshal s = .next t ∧ EndsInError .badOperand s t)

/-- R163 (with R170: MARSHAL's capacity is checked before): NONCANONICAL of all three commands. -/
def Obligations.ZeroTopWordIsNonCanonical : Prop :=
  ∀ (i : Instr) (s : State), s.magLen.toNat ≤ s.cfg.maxWords → 0 < s.magLen.toNat →
    magRead s (s.magLen.toNat - 1) = some 0 → (i = .marshal → s.bufCap.toNat ≤ s.cfg.bufBytes) →
    ∃ t, exec i s = .next t ∧ EndsInError .nonCanonical s t

/-- R170: of several errors that apply, the first in the order ILLEGAL_COMMAND, BAD_OPERAND, NONCANONICAL,
BUFFER_TOO_SMALL is reported, and UNWRITTEN_READ is taken at the read of an unwritten top word, after BAD_OPERAND and
before NONCANONICAL. -/
def Obligations.FirstErrorInPriorityOrderIsReported : Prop :=
  ∀ (s : State),
    (∀ why, s.pending = true → decode s.cmdlat = .illegal why →
      ∃ t, coreTurn s = .next t ∧ errField t.status = 4) ∧
    ∀ i : Instr,
      let n := s.magLen.toNat
      let bad := s.cfg.maxWords < n ∨ (i = .marshal ∧ s.cfg.bufBytes < s.bufCap.toNat)
      (bad → ∃ t, exec i s = .next t ∧ errField t.status = 3) ∧
      (¬ bad → 0 < n → magRead s (n - 1) = none → exec i s = .fault .unwrittenRead) ∧
      (¬ bad → 0 < n → magRead s (n - 1) = some 0 → ∃ t, exec i s = .next t ∧ errField t.status = 2) ∧
      (¬ bad → ∀ w, 0 < n → magRead s (n - 1) = some w → w ≠ 0 →
        i = .marshal → s.bufCap.toNat < n * s.cfg.B - lzb s.cfg w →
        ∃ t, exec i s = .next t ∧ errField t.status = 1)

/-- R168: FAULT is set by completions with codes 2, 3 and 4 (ILLEGAL_COMMAND, code 4, is the completion of a pending
illegal word), kept by BUFFER_TOO_SMALL and success, and cleared by nothing but reset. -/
def Obligations.FaultBitIsSticky : Prop :=
  (∀ s t : State, s.pending = true → coreTurn s = .next t →
    (faultBit t.status = true ↔ faultBit s.status = true ∨ errField t.status = 2 ∨ errField t.status = 3 ∨
      errField t.status = 4)) ∧
  (∀ (s : State) (why : IllegalWord), s.pending = true → decode s.cmdlat = .illegal why →
    ∃ t, coreTurn s = .next t ∧ errField t.status = 4 ∧ faultBit t.status = true) ∧
  (∀ (i : Instr) (s t : State), exec i s = .next t →
    (faultBit t.status = true ↔ faultBit s.status = true ∨ errField t.status = 2 ∨ errField t.status = 3 ∨
      errField t.status = 4)) ∧
  (∀ (u : Turn) (s t : State), takeTurn u s = .next t →
    (u ≠ .reset → faultBit s.status = true → faultBit t.status = true) ∧
    (u = .reset → faultBit t.status = false))

/-- The frame of every command (R37, R55): no command writes MAG, BUF_CAP, the build, CMDLAT or anything of the host's;
only MARSHAL writes BUF, and only below RESULT; only TRUNC256 writes MAG_LEN. -/
def Obligations.CommandsKeepTheirFrame : Prop :=
  ∀ (i : Instr) (s t : State), s.cfg.legal = true → exec i s = .next t →
    t.mem.mag = s.mem.mag ∧ t.bufCap = s.bufCap ∧ t.cfg = s.cfg ∧ t.cmdlat = s.cmdlat ∧
    t.host = s.host ∧ t.sched = s.sched ∧ t.replies = s.replies ∧
    (i ≠ .marshal → t.mem.buf = s.mem.buf) ∧
    (i ≠ .trunc256 → t.magLen = s.magLen) ∧
    (∀ j, t.result.toNat ≤ j → bufRead t j = bufRead s j)

/-- R113 and R30: words at MAG_LEN and above are read by no command: with other words there, written or not, a command
ends the same way with the same effects. -/
def Obligations.WordsAboveTheLengthAreNotRead : Prop :=
  ∀ (i : Instr) (s : State) (g : List (Nat × Word)),
    (∀ k, k < s.magLen.toNat → Store.read g k = magRead s k) →
    (∀ t, exec i s = .next t →
      exec i { s with mem := { s.mem with mag := g } } = .next { t with mem := { t.mem with mag := g } }) ∧
    (∀ f, exec i s = .fault f → exec i { s with mem := { s.mem with mag := g } } = .fault f)

/-- Commands stop only on unwritten words, exactly these (R33, R113, R131, R141). -/
def Obligations.CommandsStopOnlyOnUnwrittenWords : Prop :=
  ∀ (i : Instr) (s : State),
    (∀ r, exec i s ≠ .refused r) ∧ exec i s ≠ .fault .hostRace ∧
    (exec i s = .fault .unwrittenRead →
      ∃ k, k < s.magLen.toNat ∧ s.magLen.toNat ≤ s.cfg.maxWords ∧ magRead s k = none)

/-! ### The host port -/

/-- R23: a CMD write while not BUSY latches the word and starts the command; CMD reads 0; a CMD write while BUSY is a
host hazard; CMDLAT resets to 0. -/
def Obligations.CmdWriteStartsACommand : Prop :=
  ∀ (s : State) (c : Word32),
    (busyBit s.status = false →
      (∃ t, hostAccess (.csrw 0x00 c) s = .next t ∧ t.cmdlat = c ∧ t.pending = true ∧
        busyBit t.status = true ∧ doneBit t.status = false ∧ faultBit t.status = faultBit s.status ∧
        errField t.status = errField s.status ∧ reservedBits t.status = reservedBits s.status ∧
        t = { s with cmdlat := t.cmdlat, pending := t.pending, status := t.status }) ∧
      hostAccess (.csrr 0x00) s = .next { s with replies := .csr 0x00 0x00000000 :: s.replies }) ∧
    (busyBit s.status = true → hostAccess (.csrw 0x00 c) s = .fault .hostRace) ∧
    (assertReset s).cmdlat = 0x00000000

/-- R35: reserved CSR offsets and offsets that are not a multiple of 4 read 0 at all times; a write to one is ignored
(while not BUSY: the model makes a write while BUSY a HOST_RACE, log 7). -/
def Obligations.ReservedOffsetsReadZeroAndIgnoreWrites : Prop :=
  ∀ (s : State) (off : BitVec 8) (v : Word32), 0x1C ≤ off.toNat ∨ off.toNat % 4 ≠ 0 →
    hostAccess (.csrr off) s = .next { s with replies := .csr off 0x00000000 :: s.replies } ∧
    (busyBit s.status = false → hostAccess (.csrw off v) s = .next s)

/-- R28 and R29: CONFIG0 and CONFIG1 report the build, also while BUSY, ignore writes, and are the same after reset. -/
def Obligations.ConfigRegistersReportTheBuild : Prop :=
  ∀ (s : State) (v : Word32), s.cfg.legal = true →
    (∃ c0, hostAccess (.csrr 0x14) s = .next { s with replies := .csr 0x14 c0 :: s.replies } ∧
      (c0.extractLsb' 0 9).toNat = s.cfg.W ∧ c0.extractLsb' 9 7 = 0#7 ∧
      (c0.extractLsb' 16 16).toNat = s.cfg.maxWords ∧ csrRead 0x14 (assertReset s) = c0) ∧
    (∃ c1, hostAccess (.csrr 0x18) s = .next { s with replies := .csr 0x18 c1 :: s.replies } ∧
      c1.toNat = s.cfg.bufBytes ∧ csrRead 0x18 (assertReset s) = c1) ∧
    (busyBit s.status = false →
      hostAccess (.csrw 0x14 v) s = .next s ∧ hostAccess (.csrw 0x18 v) s = .next s)

/-- MAG_LEN and BUF_CAP take all 32 bits as written, whatever they are, and read back so; STATUS and RESULT ignore
writes and read as they stand (R24 to R27). -/
def Obligations.LengthAndCapacityStoreAllBits : Prop :=
  ∀ (s : State) (v : Word32), busyBit s.status = false →
    hostAccess (.csrw 0x08 v) s = .next { s with magLen := v } ∧
    hostAccess (.csrw 0x0C v) s = .next { s with bufCap := v } ∧
    hostAccess (.csrr 0x04) s = .next { s with replies := .csr 0x04 s.status :: s.replies } ∧
    hostAccess (.csrr 0x08) s = .next { s with replies := .csr 0x08 s.magLen :: s.replies } ∧
    hostAccess (.csrr 0x0C) s = .next { s with replies := .csr 0x0C s.bufCap :: s.replies } ∧
    hostAccess (.csrr 0x10) s = .next { s with replies := .csr 0x10 s.result :: s.replies } ∧
    hostAccess (.csrw 0x04 v) s = .next s ∧ hostAccess (.csrw 0x10 v) s = .next s

/-- A MAG write of a W-bit word at an implemented index replaces that whole word, which reads back, and changes no other
word, no BUF byte and nothing else (R52, R56). -/
def Obligations.MagWriteThenReadReturnsTheWord : Prop :=
  ∀ (s : State) (i : BitVec 16) (v : Word), busyBit s.status = false → i.toNat < s.cfg.maxWords →
    v.toNat < 2 ^ s.cfg.W →
    ∃ t, hostAccess (.magw i v) s = .next t ∧
      hostAccess (.magr i) t = .next { t with replies := .mag i v :: t.replies } ∧
      (∀ k, k ≠ i.toNat → magRead t k = magRead s k) ∧
      t = { s with mem := { s.mem with mag := t.mem.mag } }

/-- A BUF write at an implemented index replaces that byte, which reads back, and changes no other byte, no MAG word and
nothing else (R53, R56). -/
def Obligations.BufWriteThenReadReturnsTheByte : Prop :=
  ∀ (s : State) (j : BitVec 32) (v : Byte), busyBit s.status = false → j.toNat < s.cfg.bufBytes →
    ∃ t, hostAccess (.bufw j v) s = .next t ∧
      hostAccess (.bufr j) t = .next { t with replies := .buf j v :: t.replies } ∧
      (∀ k, k ≠ j.toNat → bufRead t k = bufRead s k) ∧
      t = { s with mem := { s.mem with buf := t.mem.buf } }

/-- Indices the build does not have read as all zeros and ignore writes (R54). -/
def Obligations.UnimplementedIndicesReadZeroAndIgnoreWrites : Prop :=
  ∀ (s : State) (i : BitVec 16) (j : BitVec 32) (v : Word) (b : Byte), busyBit s.status = false →
    (s.cfg.maxWords ≤ i.toNat →
      hostAccess (.magr i) s = .next { s with replies := .mag i 0 :: s.replies } ∧
      hostAccess (.magw i v) s = .next s) ∧
    (s.cfg.bufBytes ≤ j.toNat →
      hostAccess (.bufr j) s = .next { s with replies := .buf j 0 :: s.replies } ∧
      hostAccess (.bufw j b) s = .next s)

/-- The accesses R197 names: while BUSY a read of STATUS is permitted, reads of CONFIG0, CONFIG1 and reserved offsets are
no hazards, and a write or read of MAG, BUF, MAG_LEN or BUF_CAP, a read of RESULT and a write of CMD are HOST_RACE. That
this holds at the MAG and BUF indices the build does not have too (where R54 gives an access no effect) is the model's
reading, log 7. The accesses R197 does not name are EveryOtherAccessOfABusyBlockIsARace. -/
def Obligations.ListedAccessesOfABusyBlockAreRaces : Prop :=
  ∀ s : State, busyBit s.status = true →
    hostAccess (.csrr 0x04) s = .next { s with replies := .csr 0x04 s.status :: s.replies } ∧
    (∀ off, off = 0x14 ∨ off = 0x18 ∨ 0x1C ≤ off.toNat ∨ off.toNat % 4 ≠ 0 →
      hostAccess (.csrr off) s = .next { s with replies := .csr off (csrRead off s) :: s.replies }) ∧
    (∀ i v, hostAccess (.magw i v) s = .fault .hostRace) ∧ (∀ i, hostAccess (.magr i) s = .fault .hostRace) ∧
    (∀ j b, hostAccess (.bufw j b) s = .fault .hostRace) ∧ (∀ j, hostAccess (.bufr j) s = .fault .hostRace) ∧
    (∀ off v, off = 0x00 ∨ off = 0x08 ∨ off = 0x0C → hostAccess (.csrw off v) s = .fault .hostRace) ∧
    (∀ off, off = 0x08 ∨ off = 0x0C ∨ off = 0x10 → hostAccess (.csrr off) s = .fault .hostRace)

/-- While BUSY the only accesses that go on are reads of STATUS, CONFIG0, CONFIG1 and reserved offsets: every other one,
whatever its index, is HOST_RACE ("Any other host access is a host hazard", R197 read literally: the model's choice,
log 7). -/
def Obligations.EveryOtherAccessOfABusyBlockIsARace : Prop :=
  ∀ (s : State) (a : HostAccess), busyBit s.status = true →
    ((∃ t, hostAccess a s = .next t) ↔
      ∃ off, a = .csrr off ∧ (off = 0x04 ∨ off = 0x14 ∨ off = 0x18 ∨ 0x1C ≤ off.toNat ∨ off.toNat % 4 ≠ 0)) ∧
    ((¬ ∃ t, hostAccess a s = .next t) → hostAccess a s = .fault .hostRace)

/-- While not BUSY every host access is performed, but for a read of an implemented MAG word or BUF byte that nothing
wrote since reset, which is UNWRITTEN_READ (R33, R176). -/
def Obligations.IdleHostAccessFaultsExactlyOnUnwrittenReads : Prop :=
  ∀ (s : State) (a : HostAccess), busyBit s.status = false →
    ((¬ ∃ t, hostAccess a s = .next t) ↔
      (∃ i, a = .magr i ∧ i.toNat < s.cfg.maxWords ∧ magRead s i.toNat = none) ∨
      (∃ j, a = .bufr j ∧ j.toNat < s.cfg.bufBytes ∧ bufRead s j.toNat = none)) ∧
    (∀ f, hostAccess a s = .fault f → f = .unwrittenRead)

/-- No read has a side effect: all that changes is what the host has been given (R62). -/
def Obligations.HostReadsHaveNoSideEffect : Prop :=
  ∀ (s t : State) (a : HostAccess),
    ((∃ off, a = .csrr off) ∨ (∃ i, a = .magr i) ∨ (∃ j, a = .bufr j)) → hostAccess a s = .next t →
    ∃ r, t = { s with replies := r :: s.replies }

/-- Only a host write of that very word, or reset, changes a MAG word (R55). -/
def Obligations.OnlyTheHostWritesMagnitudeWords : Prop :=
  ∀ (u : Turn) (s t : State) (k : Nat), takeTurn u s = .next t → magRead t k ≠ magRead s k →
    u = .reset ∨ (u = .host ∧ ∃ i v rest, s.host = .access (.magw i v) :: rest ∧ i.toNat = k)

/-- Only a host write of that very byte, a MARSHAL that the core performs, or reset, changes a BUF byte (R55). -/
def Obligations.OnlyTheHostAndMarshalWriteBufferBytes : Prop :=
  ∀ (u : Turn) (s t : State) (k : Nat), takeTurn u s = .next t → bufRead t k ≠ bufRead s k →
    u = .reset ∨ (u = .host ∧ ∃ j v rest, s.host = .access (.bufw j v) :: rest ∧ j.toNat = k) ∨
    (u = .core ∧ s.pending = true ∧ decode s.cmdlat = .command .marshal)

/-! ### Reset and the invariant -/

/-- R190 and R191: the reset input, at any time and also while a command is pending (R192), gives every CSR and all hidden
state its reset value, keeps the build's constants and leaves no storage written. -/
def Obligations.ResetGivesEveryRegisterItsResetValue : Prop :=
  ∀ s : State, ∃ t, takeTurn .reset s = .next t ∧ t.status = 0 ∧ t.magLen = 0 ∧ t.bufCap = 0 ∧ t.result = 0 ∧
    csrRead 0x14 t = csrRead 0x14 s ∧ csrRead 0x18 t = csrRead 0x18 s ∧
    t.pending = false ∧ t.cmdlat = 0 ∧ (∀ i, magRead t i = none) ∧ (∀ j, bufRead t j = none)

/-- The state after reset: every CSR 0, nothing pending, no storage written, and idle (R190, R191, R193; the empty host
program and schedule are the model's, log 4 and 5). -/
def Obligations.ResetStateIsIdle : Prop :=
  State.reset.status = 0 ∧ State.reset.magLen = 0 ∧ State.reset.bufCap = 0 ∧ State.reset.result = 0 ∧
  State.reset.cmdlat = 0 ∧ State.reset.pending = false ∧
  (∀ i, magRead State.reset i = none) ∧ (∀ j, bufRead State.reset j = none) ∧
  step State.reset = .next State.reset

/-- The invariant holds of the state after reset, in every legal build. -/
def Obligations.ResetMeetsTheInvariant : Prop :=
  State.reset.Inv ∧ ∀ c : Config, c.legal = true → (State.resetOf c).Inv

/-- Every step keeps the invariant: canonical storage that fits the build, BUSY = PENDING (R32), reserved STATUS bits 0
(R24), ERR at most 4 (R169), FAULT set by codes 2 to 4 (R168), RESULT 0 after an error (R27). -/
def Obligations.StepKeepsTheInvariant : Prop :=
  ∀ s t : State, s.Inv → step s = .next t → t.Inv

/-! ### Runs of the host program -/

/-- Under the model's fair schedule every `wait` ends (R200): within two steps after the schedule has run out, unless
the pending command reads unwritten storage. Rests on the model's turns (log 4). -/
def Obligations.EveryWaitEnds : Prop :=
  ∀ (s : State) (rest : List HostStmt), s.Inv → s.host = .wait :: rest →
    ∃ k, k ≤ s.sched.length + 2 ∧
      ((∃ t : State, Host.Core.run Sys2Proof.core k s = .next t ∧ t.host = rest) ∨
        Host.Core.run Sys2Proof.core k s = .fault Fault.unwrittenRead)

/-- `setmag v` (R79) presents the value `v` in canonical form, from every idle state, and touches nothing else: MAG words
above the written ones read as before. The run rests on the model's turns and host program (log 4, 5). -/
def Obligations.SetmagPresentsTheValue : Prop :=
  ∀ (s : State) (v : Nat) (rest : List HostStmt), s.Inv → s.pending = false → s.sched = [] →
    wordCount s.cfg v ≤ s.cfg.maxWords → s.host = AsmLine.expand s.cfg (.setmag v) ++ rest →
    ∃ (t : State) (m : Nat → Word), Host.Core.run Sys2Proof.core (wordCount s.cfg v + 1) s = .next t ∧
      PresentsMagnitude t m ∧ valueOf t m = v ∧ t.magLen.toNat = wordCount s.cfg v ∧
      (∀ k, wordCount s.cfg v ≤ k → magRead t k = magRead s k) ∧
      t = { s with magLen := t.magLen, mem := { s.mem with mag := t.mem.mag }, host := rest }

/-- The whole round trip: a host that presents any value that fits, sets a capacity that holds its encoding and runs
MARSHAL finds the minimal big-endian encoding in the buffer and its length in RESULT (R68, R79, R106, R195). The run rests on the model's turns and host program (log 4, 5). -/
def Obligations.HostProgramMarshalsAnyValue : Prop :=
  ∀ (s : State) (v cap : Nat) (rest : List HostStmt), s.Inv → s.pending = false → s.sched = [] →
    wordCount s.cfg v ≤ s.cfg.maxWords → minLen v ≤ cap → cap ≤ s.cfg.bufBytes →
    s.host = assemble s.cfg [.setmag v, .access (.csrw 0x0C (BitVec.ofNat 32 cap)), .run .marshal] ++ rest →
    ∃ k, ∃ t : State, Host.Core.run Sys2Proof.core k s = .next t ∧ t.host = rest ∧ t.pending = false ∧
      errField t.status = 0 ∧ t.result.toNat = minLen v ∧
      (∀ j, j < minLen v → bufRead t j = some (be v j)) ∧
      (∀ j, minLen v ≤ j → bufRead t j = bufRead s j)
end

