-- ==== Sys2Proof/Laws/Operands.lean ====
section
/-!
SUPPORT. Laws of the value-level operands (R7, R8, R12 to R15): bytes and leading zero bytes of a word, the words and the
low words of a value, minimal length.
-/
namespace Sys2Proof

/-! ### The build's constants -/

theorem WordBits.bits_eq (w : WordBits) : w.bits = 8 * w.bytes := by cases w <;> decide

theorem WordBits.words_mul_bits (w : WordBits) : w.wordsFor256 * w.bits = 256 := by cases w <;> decide

theorem WordBits.bytes_range (w : WordBits) : 1 ≤ w.bytes ∧ w.bytes ≤ 32 := by cases w <;> decide

theorem WordBits.words_range (w : WordBits) : 1 ≤ w.wordsFor256 ∧ w.wordsFor256 ≤ 32 := by cases w <;> decide

/-- `W = 8 * B` (R7). -/
theorem Config.W_eq (c : Config) : c.W = 8 * c.B := WordBits.bits_eq _

/-- `K * W = 256` (R8). -/
theorem Config.K_mul_W (c : Config) : c.K * c.W = 256 := WordBits.words_mul_bits _

theorem Config.B_pos (c : Config) : 1 ≤ c.B := (WordBits.bytes_range _).1

theorem Config.B_le (c : Config) : c.B ≤ 32 := (WordBits.bytes_range _).2

theorem Config.K_le (c : Config) : c.K ≤ 32 := (WordBits.words_range _).2

/-- In a legal build no product of a word count up to MAX_WORDS and B exceeds 32 bits (R9, R108, R131). -/
theorem Config.mul_B_lt (c : Config) (h : c.legal = true) (n : Nat) (hn : n ≤ c.maxWords) : n * c.B < 2 ^ 32 := by
  simp only [Config.legal, Bool.and_eq_true, decide_eq_true_eq] at h
  have := Nat.mul_le_mul_right c.B hn
  omega

end Sys2Proof

namespace Sys2Proof.Machine

/-! ### Bytes of a word -/

theorem byte_toNat (w : Word) (b : Nat) : (byte w b).toNat = w.toNat / 2 ^ (8 * b) % 256 := by
  simp [byte, Nat.shiftRight_eq_div_pow]

theorem byte_eq_zero_iff (w : Word) (b : Nat) : byte w b = 0 ↔ w.toNat / 2 ^ (8 * b) % 256 = 0 := by
  rw [← byte_toNat, ← BitVec.toNat_inj]; rfl

theorem two_pow_mul_succ (k : Nat) : 2 ^ (8 * (k + 1)) = 2 ^ (8 * k) * 256 := by
  rw [Nat.mul_add, Nat.pow_add]

/-- The low `k + 1` bytes of a number are its byte `k` above its low `k` bytes. -/
theorem mod_succ_bytes (x k : Nat) :
    x % 2 ^ (8 * (k + 1)) = x % 2 ^ (8 * k) + 2 ^ (8 * k) * (x / 2 ^ (8 * k) % 256) := by
  rw [two_pow_mul_succ, Nat.mod_mul]

theorem leadingZeroBytes_le (k : Nat) (w : Word) : leadingZeroBytes k w ≤ k := by
  induction k with
  | zero => simp [leadingZeroBytes]
  | succ k ih => simp only [leadingZeroBytes]; split <;> omega

/-- Without its leading zero bytes the low part of a word has the same value. -/
theorem mod_lt_of_leadingZeroBytes (k : Nat) (w : Word) :
    w.toNat % 2 ^ (8 * k) < 2 ^ (8 * (k - leadingZeroBytes k w)) := by
  induction k with
  | zero => simp [leadingZeroBytes, Nat.mod_one]
  | succ k ih =>
    by_cases h : byte w k = 0
    · have h0 := (byte_eq_zero_iff w k).1 h
      have hz := leadingZeroBytes_le k w
      rw [leadingZeroBytes, if_pos h, mod_succ_bytes, h0, Nat.mul_zero, Nat.add_zero,
        show k + 1 - (leadingZeroBytes k w + 1) = k - leadingZeroBytes k w by omega]
      exact ih
    · rw [leadingZeroBytes, if_neg h, Nat.sub_zero]
      exact Nat.mod_lt _ (by positivity)

/-- The byte below the leading zero bytes is not zero. -/
theorem le_mod_of_leadingZeroBytes (k : Nat) (w : Word) (h : leadingZeroBytes k w < k) :
    2 ^ (8 * (k - leadingZeroBytes k w - 1)) ≤ w.toNat % 2 ^ (8 * k) := by
  induction k with
  | zero => omega
  | succ k ih =>
    by_cases hb : byte w k = 0
    · have h0 := (byte_eq_zero_iff w k).1 hb
      simp only [leadingZeroBytes, if_pos hb] at h ⊢
      rw [mod_succ_bytes, h0, Nat.mul_zero, Nat.add_zero,
        show k + 1 - (leadingZeroBytes k w + 1) = k - leadingZeroBytes k w by omega]
      exact ih (by omega)
    · simp only [leadingZeroBytes, if_neg hb]
      have h0 : 1 ≤ w.toNat / 2 ^ (8 * k) % 256 :=
        Nat.one_le_iff_ne_zero.2 fun e => hb ((byte_eq_zero_iff w k).2 e)
      rw [mod_succ_bytes, Nat.sub_zero, Nat.add_sub_cancel]
      calc 2 ^ (8 * k) = 2 ^ (8 * k) * 1 := (Nat.mul_one _).symm
        _ ≤ 2 ^ (8 * k) * (w.toNat / 2 ^ (8 * k) % 256) := Nat.mul_le_mul_left _ h0
        _ ≤ _ := Nat.le_add_left _ _

/-- A word of `k` bytes that is not zero does not consist of zero bytes (R14: `lzb(w) <= B-1` for `w != 0`). -/
theorem leadingZeroBytes_lt (k : Nat) (w : Word) (hw : w ≠ 0) (hk : w.toNat < 2 ^ (8 * k)) :
    leadingZeroBytes k w < k := by
  refine lt_of_le_of_ne (leadingZeroBytes_le k w) fun e => hw ?_
  have := mod_lt_of_leadingZeroBytes k w
  rw [e, Nat.mod_eq_of_lt hk, Nat.sub_self, Nat.mul_zero, Nat.pow_zero] at this
  apply BitVec.eq_of_toNat_eq; simpa using this

/-- The top byte of a word is zero exactly when there is a leading zero byte. -/
theorem leadingZeroBytes_eq_zero_iff (k : Nat) (hk : 1 ≤ k) (w : Word) :
    leadingZeroBytes k w = 0 ↔ byte w (k - 1) ≠ 0 := by
  obtain ⟨k, rfl⟩ : ∃ j, k = j + 1 := ⟨k - 1, by omega⟩
  simp only [leadingZeroBytes, Nat.add_sub_cancel]
  split <;> simp_all

@[simp] theorem length_lowBytes (k : Nat) (w : Word) : (lowBytes k w).length = k := by
  induction k with
  | zero => rfl
  | succ k ih => simp [lowBytes, ih]

theorem getElem_lowBytes (k : Nat) (w : Word) (j : Nat) (h : j < (lowBytes k w).length) :
    (lowBytes k w)[j] = byte w (k - 1 - j) := by
  induction k generalizing j with
  | zero => simp [lowBytes] at h
  | succ k ih =>
    cases j with
    | zero => simp [lowBytes]
    | succ j =>
      simp only [lowBytes, List.length_cons, Nat.add_lt_add_iff_right] at h
      simp only [lowBytes, List.getElem_cons_succ, ih j h]
      congr 1; omega

/-! ### Values (R13) -/

section val
variable (c : Config) (m : Nat → Word)

theorem val_lt (n : Nat) (hm : ∀ i, i < n → (m i).toNat < 2 ^ c.W) : val c m n < 2 ^ (c.W * n) := by
  induction n with
  | zero => simp [val]
  | succ n ih =>
    have h1 := ih fun i hi => hm i (by omega)
    have h2 := hm n (by omega)
    rw [val, Nat.mul_add, Nat.mul_one, Nat.pow_add, Nat.mul_comm (2 ^ (c.W * n))]
    calc val c m n + (m n).toNat * 2 ^ (c.W * n) < 2 ^ (c.W * n) + (m n).toNat * 2 ^ (c.W * n) := by omega
      _ = ((m n).toNat + 1) * 2 ^ (c.W * n) := by ring
      _ ≤ 2 ^ c.W * 2 ^ (c.W * n) := Nat.mul_le_mul_right _ h2

/-- The low `k` words of a value are the value modulo `2^(W*k)` (R142, R144). -/
theorem val_mod (n k : Nat) (hk : k ≤ n) (hm : ∀ i, i < n → (m i).toNat < 2 ^ c.W) :
    val c m n % 2 ^ (c.W * k) = val c m k := by
  induction n with
  | zero =>
    obtain rfl : k = 0 := by omega
    simp [val]
  | succ n ih =>
    rcases Nat.eq_or_lt_of_le hk with rfl | h
    · exact Nat.mod_eq_of_lt (val_lt c m _ hm)
    · have : 2 ^ (c.W * n) = 2 ^ (c.W * k) * 2 ^ (c.W * (n - k)) := by
        rw [← Nat.pow_add, ← Nat.mul_add, Nat.add_sub_cancel' (by omega)]
      rw [val, this, ← Nat.mul_assoc, Nat.mul_comm _ (2 ^ (c.W * k)), Nat.mul_assoc, Nat.add_mul_mod_self_left]
      exact ih (by omega) fun i hi => hm i (by omega)

/-- Word `q` of a value (R57). -/
theorem val_div_mod (n q : Nat) (hq : q < n) (hm : ∀ i, i < n → (m i).toNat < 2 ^ c.W) :
    val c m n / 2 ^ (c.W * q) % 2 ^ c.W = (m q).toNat := by
  have h1 := val_mod c m n (q + 1) hq hm
  have h2 := val_lt c m q fun i hi => hm i (by omega)
  rw [Nat.mul_add, Nat.mul_one, Nat.pow_add] at h1
  rw [← Nat.mod_mul_right_div_self, h1, val, Nat.mul_comm, Nat.add_mul_div_left _ _ (by positivity),
    Nat.div_eq_of_lt h2, Nat.zero_add]

/-- Byte `p` of a value is a byte of one of its words (R12, R57). -/
theorem val_byte (n p : Nat) (hp : p < n * c.B) (hm : ∀ i, i < n → (m i).toNat < 2 ^ c.W) :
    val c m n / 2 ^ (8 * p) % 256 = (byte (m (p / c.B)) (p % c.B)).toNat := by
  have hB := Config.B_pos c
  have hq : p / c.B < n := Nat.div_lt_of_lt_mul (by rwa [Nat.mul_comm])
  have hr : p % c.B < c.B := Nat.mod_lt _ hB
  rw [byte_toNat, ← val_div_mod c m n _ hq hm]
  have e1 : 8 * p = c.W * (p / c.B) + 8 * (p % c.B) := by
    rw [Config.W_eq, Nat.mul_assoc, ← Nat.mul_add, Nat.div_add_mod]
  have e2 : 2 ^ c.W = 2 ^ (8 * (p % c.B)) * (256 * 2 ^ (8 * (c.B - 1 - p % c.B))) := by
    rw [show (256 : Nat) = 2 ^ 8 from rfl, ← Nat.pow_add, ← Nat.pow_add, Config.W_eq]; congr 1; omega
  rw [e1, Nat.pow_add, ← Nat.div_div_eq_div_mul]
  set x := val c m n / 2 ^ (c.W * (p / c.B))
  rw [e2, Nat.mod_mul_right_div_self, Nat.mod_mul_right_mod]

/-- Zero words at the top add nothing to a value (R143, R144). -/
theorem val_drop_zero (n k : Nat) (hk : k ≤ n) (hz : ∀ i, k ≤ i → i < n → m i = 0) : val c m n = val c m k := by
  induction n with
  | zero =>
    obtain rfl : k = 0 := by omega
    rfl
  | succ n ih =>
    rcases Nat.eq_or_lt_of_le hk with rfl | h
    · rfl
    · rw [val, hz n (by omega) (by omega), ih (by omega) fun i h1 h2 => hz i h1 (by omega)]; simp

end val

/-! ### Minimal length (R15) -/

/-- `minLen(v)` is the least `L` with `v < 2^(8*L)`. -/
theorem minLen_le_iff (v l : Nat) : minLen v ≤ l ↔ v < 2 ^ (8 * l) := by
  unfold minLen
  by_cases h : v = 0
  · simp [h]
  · rw [if_neg h, ← Nat.log2_lt h]; omega

theorem minLen_eq (v l : Nat) (h1 : v < 2 ^ (8 * l)) (h2 : ∀ k, k < l → 2 ^ (8 * k) ≤ v) : minLen v = l := by
  refine le_antisymm ((minLen_le_iff v l).2 h1) (Nat.le_of_not_lt fun hlt => ?_)
  have := (minLen_le_iff v (minLen v)).1 le_rfl
  exact absurd (h2 _ hlt) (by omega)

/-- The minimal length of a canonical magnitude with top word `t` is `n*B - lzb(t)` (R102, R106). -/
theorem minLen_val (c : Config) (m : Nat → Word) (n : Nat) (hn : 0 < n) (hm : ∀ i, i < n → (m i).toNat < 2 ^ c.W)
    (ht : m (n - 1) ≠ 0) : minLen (val c m n) = n * c.B - lzb c (m (n - 1)) := by
  obtain ⟨n, rfl⟩ : ∃ k, n = k + 1 := ⟨n - 1, by omega⟩
  rw [Nat.add_sub_cancel] at *
  have hW := Config.W_eq c
  have hw := hm n (by omega)
  have hlow := val_lt c m n fun i hi => hm i (by omega)
  rw [hW] at hw
  have hz : lzb c (m n) < c.B := leadingZeroBytes_lt _ _ ht hw
  have hz1 := mod_lt_of_leadingZeroBytes c.B (m n)
  have hz2 := le_mod_of_leadingZeroBytes c.B (m n) hz
  rw [Nat.mod_eq_of_lt hw] at hz1 hz2
  change (m n).toNat < 2 ^ (8 * (c.B - lzb c (m n))) at hz1
  change 2 ^ (8 * (c.B - lzb c (m n) - 1)) ≤ (m n).toNat at hz2
  have hbits : c.W * n = 8 * (n * c.B) := by rw [hW]; ring
  rw [hbits] at hlow
  have hv : val c m (n + 1) = val c m n + (m n).toNat * 2 ^ (8 * (n * c.B)) := by rw [val, hbits]
  have hnB : (n + 1) * c.B = n * c.B + c.B := by ring
  apply minLen_eq
  · rw [hv, hnB, show n * c.B + c.B - lzb c (m n) = (c.B - lzb c (m n)) + n * c.B by omega, Nat.mul_add, Nat.pow_add]
    calc _ < 2 ^ (8 * (n * c.B)) + (m n).toNat * 2 ^ (8 * (n * c.B)) := by omega
      _ = ((m n).toNat + 1) * 2 ^ (8 * (n * c.B)) := by ring
      _ ≤ _ := Nat.mul_le_mul_right _ hz1
  · intro k hk
    rw [hv]
    calc 2 ^ (8 * k) ≤ 2 ^ (8 * (c.B - lzb c (m n) - 1 + n * c.B)) := Nat.pow_le_pow_right (by norm_num) (by omega)
      _ = 2 ^ (8 * (c.B - lzb c (m n) - 1)) * 2 ^ (8 * (n * c.B)) := by rw [Nat.mul_add, Nat.pow_add]
      _ ≤ (m n).toNat * 2 ^ (8 * (n * c.B)) := Nat.mul_le_mul_right _ hz2
      _ ≤ _ := Nat.le_add_left _ _

end Sys2Proof.Machine
end

