-- ==== Sys2Proof/Laws/State.lean ====
section
/-!
SUPPORT. One lemma per field per update of the state: what each shared operation writes and what it leaves alone. No
later proof unfolds a record update.
-/
namespace Sys2Proof.Machine

variable (s : State)

/-! ### magWrite (R52) -/

@[simp] theorem magWrite_cfg (i : Nat) (v : Word) : (magWrite i v s).cfg = s.cfg := rfl
@[simp] theorem magWrite_cmdlat (i : Nat) (v : Word) : (magWrite i v s).cmdlat = s.cmdlat := rfl
@[simp] theorem magWrite_pending (i : Nat) (v : Word) : (magWrite i v s).pending = s.pending := rfl
@[simp] theorem magWrite_status (i : Nat) (v : Word) : (magWrite i v s).status = s.status := rfl
@[simp] theorem magWrite_magLen (i : Nat) (v : Word) : (magWrite i v s).magLen = s.magLen := rfl
@[simp] theorem magWrite_bufCap (i : Nat) (v : Word) : (magWrite i v s).bufCap = s.bufCap := rfl
@[simp] theorem magWrite_result (i : Nat) (v : Word) : (magWrite i v s).result = s.result := rfl
@[simp] theorem magWrite_mem (i : Nat) (v : Word) : (magWrite i v s).mem =
    { s.mem with mag := Store.write s.mem.mag i v } := rfl
@[simp] theorem magWrite_host (i : Nat) (v : Word) : (magWrite i v s).host = s.host := rfl
@[simp] theorem magWrite_sched (i : Nat) (v : Word) : (magWrite i v s).sched = s.sched := rfl
@[simp] theorem magWrite_replies (i : Nat) (v : Word) : (magWrite i v s).replies = s.replies := rfl

/-! ### bufWrite (R53) -/

@[simp] theorem bufWrite_cfg (j : Nat) (v : Byte) : (bufWrite j v s).cfg = s.cfg := rfl
@[simp] theorem bufWrite_cmdlat (j : Nat) (v : Byte) : (bufWrite j v s).cmdlat = s.cmdlat := rfl
@[simp] theorem bufWrite_pending (j : Nat) (v : Byte) : (bufWrite j v s).pending = s.pending := rfl
@[simp] theorem bufWrite_status (j : Nat) (v : Byte) : (bufWrite j v s).status = s.status := rfl
@[simp] theorem bufWrite_magLen (j : Nat) (v : Byte) : (bufWrite j v s).magLen = s.magLen := rfl
@[simp] theorem bufWrite_bufCap (j : Nat) (v : Byte) : (bufWrite j v s).bufCap = s.bufCap := rfl
@[simp] theorem bufWrite_result (j : Nat) (v : Byte) : (bufWrite j v s).result = s.result := rfl
@[simp] theorem bufWrite_mem (j : Nat) (v : Byte) : (bufWrite j v s).mem =
    { s.mem with buf := Store.write s.mem.buf j v } := rfl
@[simp] theorem bufWrite_host (j : Nat) (v : Byte) : (bufWrite j v s).host = s.host := rfl
@[simp] theorem bufWrite_sched (j : Nat) (v : Byte) : (bufWrite j v s).sched = s.sched := rfl
@[simp] theorem bufWrite_replies (j : Nat) (v : Byte) : (bufWrite j v s).replies = s.replies := rfl

/-! ### bufWriteAll (R107) -/

@[simp] theorem bufWriteAll_cfg (bs : List Byte) : (bufWriteAll bs s).cfg = s.cfg := rfl
@[simp] theorem bufWriteAll_cmdlat (bs : List Byte) : (bufWriteAll bs s).cmdlat = s.cmdlat := rfl
@[simp] theorem bufWriteAll_pending (bs : List Byte) : (bufWriteAll bs s).pending = s.pending := rfl
@[simp] theorem bufWriteAll_status (bs : List Byte) : (bufWriteAll bs s).status = s.status := rfl
@[simp] theorem bufWriteAll_magLen (bs : List Byte) : (bufWriteAll bs s).magLen = s.magLen := rfl
@[simp] theorem bufWriteAll_bufCap (bs : List Byte) : (bufWriteAll bs s).bufCap = s.bufCap := rfl
@[simp] theorem bufWriteAll_result (bs : List Byte) : (bufWriteAll bs s).result = s.result := rfl
@[simp] theorem bufWriteAll_mem (bs : List Byte) : (bufWriteAll bs s).mem =
    { s.mem with buf := Store.writeAll s.mem.buf 0 bs } := rfl
@[simp] theorem bufWriteAll_host (bs : List Byte) : (bufWriteAll bs s).host = s.host := rfl
@[simp] theorem bufWriteAll_sched (bs : List Byte) : (bufWriteAll bs s).sched = s.sched := rfl
@[simp] theorem bufWriteAll_replies (bs : List Byte) : (bufWriteAll bs s).replies = s.replies := rfl

/-! ### startCommand (R23) -/

@[simp] theorem startCommand_cfg (c : Word32) : (startCommand c s).cfg = s.cfg := rfl
@[simp] theorem startCommand_cmdlat (c : Word32) : (startCommand c s).cmdlat = c := rfl
@[simp] theorem startCommand_pending (c : Word32) : (startCommand c s).pending = true := rfl
@[simp] theorem startCommand_status (c : Word32) : (startCommand c s).status = startedStatus s.status := rfl
@[simp] theorem startCommand_magLen (c : Word32) : (startCommand c s).magLen = s.magLen := rfl
@[simp] theorem startCommand_bufCap (c : Word32) : (startCommand c s).bufCap = s.bufCap := rfl
@[simp] theorem startCommand_result (c : Word32) : (startCommand c s).result = s.result := rfl
@[simp] theorem startCommand_mem (c : Word32) : (startCommand c s).mem = s.mem := rfl
@[simp] theorem startCommand_host (c : Word32) : (startCommand c s).host = s.host := rfl
@[simp] theorem startCommand_sched (c : Word32) : (startCommand c s).sched = s.sched := rfl
@[simp] theorem startCommand_replies (c : Word32) : (startCommand c s).replies = s.replies := rfl

/-! ### raise (R166) -/

@[simp] theorem raise_cfg (e : ErrCode) : (raise e s).cfg = s.cfg := rfl
@[simp] theorem raise_cmdlat (e : ErrCode) : (raise e s).cmdlat = s.cmdlat := rfl
@[simp] theorem raise_pending (e : ErrCode) : (raise e s).pending = false := rfl
@[simp] theorem raise_status (e : ErrCode) : (raise e s).status = raisedStatus e s.status := rfl
@[simp] theorem raise_magLen (e : ErrCode) : (raise e s).magLen = s.magLen := rfl
@[simp] theorem raise_bufCap (e : ErrCode) : (raise e s).bufCap = s.bufCap := rfl
@[simp] theorem raise_result (e : ErrCode) : (raise e s).result = 0x00000000 := rfl
@[simp] theorem raise_mem (e : ErrCode) : (raise e s).mem = s.mem := rfl
@[simp] theorem raise_host (e : ErrCode) : (raise e s).host = s.host := rfl
@[simp] theorem raise_sched (e : ErrCode) : (raise e s).sched = s.sched := rfl
@[simp] theorem raise_replies (e : ErrCode) : (raise e s).replies = s.replies := rfl

/-! ### setResult (R27) -/

@[simp] theorem setResult_cfg (v : Word32) : (setResult v s).cfg = s.cfg := rfl
@[simp] theorem setResult_cmdlat (v : Word32) : (setResult v s).cmdlat = s.cmdlat := rfl
@[simp] theorem setResult_pending (v : Word32) : (setResult v s).pending = s.pending := rfl
@[simp] theorem setResult_status (v : Word32) : (setResult v s).status = s.status := rfl
@[simp] theorem setResult_magLen (v : Word32) : (setResult v s).magLen = s.magLen := rfl
@[simp] theorem setResult_bufCap (v : Word32) : (setResult v s).bufCap = s.bufCap := rfl
@[simp] theorem setResult_result (v : Word32) : (setResult v s).result = v := rfl
@[simp] theorem setResult_mem (v : Word32) : (setResult v s).mem = s.mem := rfl
@[simp] theorem setResult_host (v : Word32) : (setResult v s).host = s.host := rfl
@[simp] theorem setResult_sched (v : Word32) : (setResult v s).sched = s.sched := rfl
@[simp] theorem setResult_replies (v : Word32) : (setResult v s).replies = s.replies := rfl

/-! ### setMagLen (R25) -/

@[simp] theorem setMagLen_cfg (n : Word32) : (setMagLen n s).cfg = s.cfg := rfl
@[simp] theorem setMagLen_cmdlat (n : Word32) : (setMagLen n s).cmdlat = s.cmdlat := rfl
@[simp] theorem setMagLen_pending (n : Word32) : (setMagLen n s).pending = s.pending := rfl
@[simp] theorem setMagLen_status (n : Word32) : (setMagLen n s).status = s.status := rfl
@[simp] theorem setMagLen_magLen (n : Word32) : (setMagLen n s).magLen = n := rfl
@[simp] theorem setMagLen_bufCap (n : Word32) : (setMagLen n s).bufCap = s.bufCap := rfl
@[simp] theorem setMagLen_result (n : Word32) : (setMagLen n s).result = s.result := rfl
@[simp] theorem setMagLen_mem (n : Word32) : (setMagLen n s).mem = s.mem := rfl
@[simp] theorem setMagLen_host (n : Word32) : (setMagLen n s).host = s.host := rfl
@[simp] theorem setMagLen_sched (n : Word32) : (setMagLen n s).sched = s.sched := rfl
@[simp] theorem setMagLen_replies (n : Word32) : (setMagLen n s).replies = s.replies := rfl

/-! ### complete (R167) -/

@[simp] theorem complete_cfg : (complete s).cfg = s.cfg := rfl
@[simp] theorem complete_cmdlat : (complete s).cmdlat = s.cmdlat := rfl
@[simp] theorem complete_pending : (complete s).pending = false := rfl
@[simp] theorem complete_status : (complete s).status = succeededStatus s.status := rfl
@[simp] theorem complete_magLen : (complete s).magLen = s.magLen := rfl
@[simp] theorem complete_bufCap : (complete s).bufCap = s.bufCap := rfl
@[simp] theorem complete_result : (complete s).result = s.result := rfl
@[simp] theorem complete_mem : (complete s).mem = s.mem := rfl
@[simp] theorem complete_host : (complete s).host = s.host := rfl
@[simp] theorem complete_sched : (complete s).sched = s.sched := rfl
@[simp] theorem complete_replies : (complete s).replies = s.replies := rfl

/-! ### reply (R68) -/

@[simp] theorem reply_cfg (r : Reply) : (reply r s).cfg = s.cfg := rfl
@[simp] theorem reply_cmdlat (r : Reply) : (reply r s).cmdlat = s.cmdlat := rfl
@[simp] theorem reply_pending (r : Reply) : (reply r s).pending = s.pending := rfl
@[simp] theorem reply_status (r : Reply) : (reply r s).status = s.status := rfl
@[simp] theorem reply_magLen (r : Reply) : (reply r s).magLen = s.magLen := rfl
@[simp] theorem reply_bufCap (r : Reply) : (reply r s).bufCap = s.bufCap := rfl
@[simp] theorem reply_result (r : Reply) : (reply r s).result = s.result := rfl
@[simp] theorem reply_mem (r : Reply) : (reply r s).mem = s.mem := rfl
@[simp] theorem reply_host (r : Reply) : (reply r s).host = s.host := rfl
@[simp] theorem reply_sched (r : Reply) : (reply r s).sched = s.sched := rfl
@[simp] theorem reply_replies (r : Reply) : (reply r s).replies = r :: s.replies := rfl

/-! ### assertReset (R190, R191) -/

@[simp] theorem assertReset_cfg : (assertReset s).cfg = s.cfg := rfl
@[simp] theorem assertReset_cmdlat : (assertReset s).cmdlat = 0x00000000 := rfl
@[simp] theorem assertReset_pending : (assertReset s).pending = false := rfl
@[simp] theorem assertReset_status : (assertReset s).status = 0x00000000 := rfl
@[simp] theorem assertReset_magLen : (assertReset s).magLen = 0x00000000 := rfl
@[simp] theorem assertReset_bufCap : (assertReset s).bufCap = 0x00000000 := rfl
@[simp] theorem assertReset_result : (assertReset s).result = 0x00000000 := rfl
@[simp] theorem assertReset_mem : (assertReset s).mem = { mag := [], buf := [] } := rfl
@[simp] theorem assertReset_host : (assertReset s).host = s.host := rfl
@[simp] theorem assertReset_sched : (assertReset s).sched = s.sched := rfl
@[simp] theorem assertReset_replies : (assertReset s).replies = s.replies := rfl

/-! ### State.resetOf (R190, R191) -/

@[simp] theorem resetOf_cfg (c : Config) : (State.resetOf c).cfg = c := rfl
@[simp] theorem resetOf_cmdlat (c : Config) : (State.resetOf c).cmdlat = 0x00000000 := rfl
@[simp] theorem resetOf_pending (c : Config) : (State.resetOf c).pending = false := rfl
@[simp] theorem resetOf_status (c : Config) : (State.resetOf c).status = 0x00000000 := rfl
@[simp] theorem resetOf_magLen (c : Config) : (State.resetOf c).magLen = 0x00000000 := rfl
@[simp] theorem resetOf_bufCap (c : Config) : (State.resetOf c).bufCap = 0x00000000 := rfl
@[simp] theorem resetOf_result (c : Config) : (State.resetOf c).result = 0x00000000 := rfl
@[simp] theorem resetOf_mem (c : Config) : (State.resetOf c).mem = { mag := [], buf := [] } := rfl
@[simp] theorem resetOf_host (c : Config) : (State.resetOf c).host = [] := rfl
@[simp] theorem resetOf_sched (c : Config) : (State.resetOf c).sched = [] := rfl
@[simp] theorem resetOf_replies (c : Config) : (State.resetOf c).replies = [] := rfl

end Sys2Proof.Machine
end

