-- ==== Sys2Proof/Laws/Status.lean ====
section
/-!
SUPPORT. What starting, failing and completing a command do to each field of STATUS (R23, R24, R166 to R168), one lemma
per field, through one lemma on single bits.
-/
namespace Sys2Proof.Machine

theorem getLsbD_setBit (st : Word32) (k i : Nat) (b : Bool) (hk : k < 32) :
    (setBit st k b).getLsbD i = if i = k then b else st.getLsbD i := by
  unfold setBit
  by_cases hi : i = k
  · subst hi; cases b <;> simp [hk]
  · cases b <;> by_cases h : i < 32 <;> simp [hi, h] <;> grind

theorem getLsbD_setErr (st : Word32) (e : BitVec 4) (i : Nat) :
    (setErr st e).getLsbD i = if 4 ≤ i ∧ i < 8 then e.getLsbD (i - 4) else st.getLsbD i := by
  unfold setErr
  by_cases h : i < 32
  · interval_cases i <;> simp
  · simp [h]; grind

theorem getLsbD_startedStatus (st : Word32) (i : Nat) :
    (startedStatus st).getLsbD i = if i = 0 then true else if i = 1 then false else st.getLsbD i := by
  simp only [startedStatus, getLsbD_setBit _ _ _ _ (by decide : 0 < 32), getLsbD_setBit _ _ _ _ (by decide : 1 < 32)]
  grind

theorem getLsbD_endedStatus (st : Word32) (i : Nat) :
    (endedStatus st).getLsbD i = if i = 0 then false else if i = 1 then true else st.getLsbD i := by
  simp only [endedStatus, getLsbD_setBit _ _ _ _ (by decide : 0 < 32), getLsbD_setBit _ _ _ _ (by decide : 1 < 32)]
  grind

theorem getLsbD_raisedStatus (e : ErrCode) (st : Word32) (i : Nat) :
    (raisedStatus e st).getLsbD i =
      if i = 0 then false else if i = 1 then true else if i = 2 then faultBit st || e.sticky
      else if 4 ≤ i ∧ i < 8 then e.code.getLsbD (i - 4) else st.getLsbD i := by
  simp only [raisedStatus, getLsbD_endedStatus, getLsbD_setBit _ _ _ _ (by decide : 2 < 32), getLsbD_setErr]

theorem getLsbD_succeededStatus (st : Word32) (i : Nat) :
    (succeededStatus st).getLsbD i =
      if i = 0 then false else if i = 1 then true else if 4 ≤ i ∧ i < 8 then false else st.getLsbD i := by
  simp only [succeededStatus, getLsbD_endedStatus, getLsbD_setErr, BitVec.ofNat_eq_ofNat, BitVec.getLsbD_zero]

/-- Two status words with the same bits 7:4 have the same ERR. -/
theorem errField_eq (a b : Word32) (h : ∀ i, 4 ≤ i → i < 8 → a.getLsbD i = b.getLsbD i) :
    errField a = errField b := by
  apply BitVec.eq_of_getLsbD_eq
  intro i hi
  simp only [errField, BitVec.getLsbD_extractLsb', hi, decide_true, Bool.true_and]
  exact h _ (by omega) (by omega)

/-- Two status words with the same bits 3 and 31:8 have the same reserved bits. -/
theorem reservedBits_eq (a b : Word32) (h : ∀ i, i = 3 ∨ 8 ≤ i → a.getLsbD i = b.getLsbD i) :
    reservedBits a = reservedBits b := by
  apply BitVec.eq_of_getLsbD_eq
  intro i hi
  simp only [reservedBits, BitVec.getLsbD_and]
  by_cases h' : i = 3 ∨ 8 ≤ i
  · rw [h i h']
  · have : i = 0 ∨ i = 1 ∨ i = 2 ∨ i = 4 ∨ i = 5 ∨ i = 6 ∨ i = 7 := by omega
    rcases this with rfl | rfl | rfl | rfl | rfl | rfl | rfl <;> simp

variable (st : Word32) (e : ErrCode)

/-! ### A CMD write (R23) -/

@[simp] theorem busyBit_started : busyBit (startedStatus st) = true := by
  rw [busyBit, getLsbD_startedStatus]; rfl
@[simp] theorem doneBit_started : doneBit (startedStatus st) = false := by
  rw [doneBit, getLsbD_startedStatus]; rfl
@[simp] theorem faultBit_started : faultBit (startedStatus st) = faultBit st := by
  rw [faultBit, getLsbD_startedStatus]; rfl
@[simp] theorem errField_started : errField (startedStatus st) = errField st :=
  errField_eq _ _ fun i _ _ => by rw [getLsbD_startedStatus, if_neg (by omega), if_neg (by omega)]
@[simp] theorem reservedBits_started : reservedBits (startedStatus st) = reservedBits st :=
  reservedBits_eq _ _ fun i _ => by rw [getLsbD_startedStatus, if_neg (by omega), if_neg (by omega)]

/-! ### An error completion (R166, R168) -/

@[simp] theorem busyBit_raised : busyBit (raisedStatus e st) = false := by
  rw [busyBit, getLsbD_raisedStatus]; rfl
@[simp] theorem doneBit_raised : doneBit (raisedStatus e st) = true := by
  rw [doneBit, getLsbD_raisedStatus]; rfl
@[simp] theorem faultBit_raised : faultBit (raisedStatus e st) = (faultBit st || e.sticky) := by
  rw [faultBit, getLsbD_raisedStatus]; rfl
@[simp] theorem errField_raised : errField (raisedStatus e st) = e.code := by
  apply BitVec.eq_of_getLsbD_eq
  intro i hi
  simp only [errField, BitVec.getLsbD_extractLsb', hi, decide_true, Bool.true_and, getLsbD_raisedStatus]
  rw [if_neg (by omega), if_neg (by omega), if_neg (by omega), if_pos (by omega), Nat.add_sub_cancel_left]
@[simp] theorem reservedBits_raised : reservedBits (raisedStatus e st) = reservedBits st :=
  reservedBits_eq _ _ fun i _ => by
    rw [getLsbD_raisedStatus, if_neg (by omega), if_neg (by omega), if_neg (by omega), if_neg (by omega)]

/-! ### A successful completion (R167) -/

@[simp] theorem busyBit_succeeded : busyBit (succeededStatus st) = false := by
  rw [busyBit, getLsbD_succeededStatus]; rfl
@[simp] theorem doneBit_succeeded : doneBit (succeededStatus st) = true := by
  rw [doneBit, getLsbD_succeededStatus]; rfl
@[simp] theorem faultBit_succeeded : faultBit (succeededStatus st) = faultBit st := by
  rw [faultBit, getLsbD_succeededStatus]; rfl
@[simp] theorem errField_succeeded : errField (succeededStatus st) = 0 := by
  apply BitVec.eq_of_getLsbD_eq
  intro i hi
  simp only [errField, BitVec.getLsbD_extractLsb', hi, decide_true, Bool.true_and, getLsbD_succeededStatus]
  rw [if_neg (by omega), if_neg (by omega), if_pos (by omega)]
  exact BitVec.getLsbD_zero.symm
@[simp] theorem reservedBits_succeeded : reservedBits (succeededStatus st) = reservedBits st :=
  reservedBits_eq _ _ fun i _ => by
    rw [getLsbD_succeededStatus, if_neg (by omega), if_neg (by omega), if_neg (by omega)]

/-! ### The reset value (R24) -/

@[simp] theorem busyBit_zero : busyBit 0#32 = false := by decide
@[simp] theorem doneBit_zero : doneBit 0#32 = false := by decide
@[simp] theorem faultBit_zero : faultBit 0#32 = false := by decide
@[simp] theorem errField_zero : errField 0#32 = 0 := by decide
@[simp] theorem reservedBits_zero : reservedBits 0#32 = 0 := by decide

/-- A second success leaves STATUS as the first left it. -/
theorem succeededStatus_idem : succeededStatus (succeededStatus st) = succeededStatus st :=
  BitVec.eq_of_getLsbD_eq fun i _ => by simp only [getLsbD_succeededStatus]; split_ifs <;> rfl

/-- FAULT is set exactly by codes 2, 3 and 4 (R168). -/
theorem sticky_eq (e : ErrCode) : e.sticky = (e.code == 2 || e.code == 3 || e.code == 4) := by cases e <;> rfl

theorem code_ne_zero (e : ErrCode) : e.code ≠ 0 := by cases e <;> decide

theorem code_le_four (e : ErrCode) : e.code.toNat ≤ 4 := by cases e <;> decide

theorem code_injective {a b : ErrCode} (h : a.code = b.code) : a = b := by
  cases a <;> cases b <;> first | rfl | exact absurd h (by decide)

end Sys2Proof.Machine
end

