-- ==== Sys2Proof/Laws/Store.lean ====
section
/-!
SUPPORT. Laws of storage (R33, R52 to R54): a read after a write, the frame of a write, and that every write keeps the
canonical form and stays within the build.
-/
namespace Sys2Proof.Machine

variable {α : Type}

/-- A write is read back. -/
@[simp] theorem Store.read_write_same (st : List (Nat × α)) (i : Nat) (v : α) :
    Store.read (Store.write st i v) i = some v := by
  induction st with
  | nil => simp [Store.write, Store.read]
  | cons p rest ih =>
    obtain ⟨a, x⟩ := p
    by_cases h1 : i < a
    · simp [Store.write, Store.read, h1]
    · by_cases h2 : i = a
      · simp [Store.write, Store.read, h2]
      · have h3 : ¬ a = i := fun h => h2 h.symm
        simp [Store.write, Store.read, h1, h2, h3, ih]

/-- A write leaves every other index alone. -/
theorem Store.read_write_other (st : List (Nat × α)) (i j : Nat) (v : α) (h : j ≠ i) :
    Store.read (Store.write st i v) j = Store.read st j := by
  induction st with
  | nil => simp [Store.write, Store.read, h.symm]
  | cons p rest ih =>
    obtain ⟨a, x⟩ := p
    by_cases h1 : i < a
    · simp [Store.write, Store.read, h1, h.symm]
    · by_cases h2 : i = a
      · subst h2; simp [Store.write, Store.read, h.symm]
      · simp [Store.write, Store.read, h1, h2, ih]

/-- A run of writes leaves every index outside it alone. -/
theorem Store.read_writeAll_outside (st : List (Nat × α)) (vs : List α) (i j : Nat)
    (h : j < i ∨ i + vs.length ≤ j) : Store.read (Store.writeAll st i vs) j = Store.read st j := by
  induction vs generalizing st i with
  | nil => rfl
  | cons v vs ih =>
    simp only [List.length_cons] at h
    rw [Store.writeAll, ih _ _ (by omega), Store.read_write_other _ _ _ _ (by omega)]

/-- A run of writes is read back, value by value. -/
theorem Store.read_writeAll_inside (st : List (Nat × α)) (vs : List α) (i k : Nat) (h : k < vs.length) :
    Store.read (Store.writeAll st i vs) (i + k) = some vs[k] := by
  induction vs generalizing st i k with
  | nil => simp at h
  | cons v vs ih =>
    rw [Store.writeAll]
    cases k with
    | zero => rw [Store.read_writeAll_outside _ _ _ _ (by omega)]; simp
    | succ k =>
      have := ih (Store.write st i v) (i + 1) k (by simpa using h)
      rw [show i + (k + 1) = i + 1 + k by omega, this]; simp

theorem Store.risingFrom_mono {lo lo' : Nat} (h : lo ≤ lo') (st : List (Nat × α)) (hs : Store.risingFrom lo' st = true) :
    Store.risingFrom lo st = true := by
  cases st with
  | nil => rfl
  | cons p rest => simp only [Store.risingFrom, Bool.and_eq_true, decide_eq_true_eq] at *; exact ⟨by omega, hs.2⟩

/-- A write keeps the indices strictly rising. -/
theorem Store.risingFrom_write (st : List (Nat × α)) (lo i : Nat) (v : α) (hi : lo ≤ i)
    (hs : Store.risingFrom lo st = true) : Store.risingFrom lo (Store.write st i v) = true := by
  induction st generalizing lo with
  | nil => simp [Store.write, Store.risingFrom, hi]
  | cons p rest ih =>
    obtain ⟨a, x⟩ := p
    simp only [Store.risingFrom, Bool.and_eq_true, decide_eq_true_eq] at hs
    by_cases h1 : i < a
    · simp only [Store.write, h1, if_true, Store.risingFrom, Bool.and_eq_true, decide_eq_true_eq]
      exact ⟨hi, by omega, hs.2⟩
    · by_cases h2 : i = a
      · subst h2; simp [Store.write, Store.risingFrom, hi, hs.2]
      · simp only [Store.write, h1, h2, if_false, Store.risingFrom, Bool.and_eq_true, decide_eq_true_eq]
        exact ⟨hs.1, ih _ (by omega) hs.2⟩

theorem Store.risingFrom_writeAll (st : List (Nat × α)) (i : Nat) (vs : List α)
    (hs : Store.risingFrom 0 st = true) : Store.risingFrom 0 (Store.writeAll st i vs) = true := by
  induction vs generalizing st i with
  | nil => exact hs
  | cons v vs ih => exact ih _ _ (Store.risingFrom_write _ _ _ _ (by omega) hs)

/-- A property of all entries survives the write of an entry that has it. -/
theorem Store.all_write (p : Nat × α → Bool) (st : List (Nat × α)) (i : Nat) (v : α) (hv : p (i, v) = true)
    (hs : st.all p = true) : (Store.write st i v).all p = true := by
  induction st with
  | nil => simp [Store.write, hv]
  | cons q rest ih =>
    obtain ⟨a, x⟩ := q
    simp only [List.all_cons, Bool.and_eq_true] at hs
    by_cases h1 : i < a
    · simp [Store.write, h1, hv, hs]
    · by_cases h2 : i = a
      · simp only [Store.write, h2, lt_irrefl, if_false, if_true, List.all_cons, Bool.and_eq_true]
        exact ⟨h2 ▸ hv, hs.2⟩
      · simp only [Store.write, h1, h2, if_false, List.all_cons, Bool.and_eq_true]
        exact ⟨hs.1, ih hs.2⟩

theorem Store.all_writeAll (p : Nat × α → Bool) (st : List (Nat × α)) (i : Nat) (vs : List α)
    (hv : ∀ k v, i ≤ k → k < i + vs.length → p (k, v) = true) (hs : st.all p = true) :
    (Store.writeAll st i vs).all p = true := by
  induction vs generalizing st i with
  | nil => exact hs
  | cons v vs ih =>
    simp only [List.length_cons] at hv
    exact ih _ _ (fun k w h1 h2 => hv k w (by omega) (by omega))
      (Store.all_write p st i v (hv i v (by omega) (by omega)) hs)

/-- What a store's entries all satisfy, what is read from it satisfies. -/
theorem Store.of_read (p : Nat × α → Bool) (st : List (Nat × α)) (i : Nat) (v : α) (hs : st.all p = true)
    (h : Store.read st i = some v) : p (i, v) = true := by
  induction st with
  | nil => simp [Store.read] at h
  | cons q rest ih =>
    obtain ⟨a, x⟩ := q
    simp only [List.all_cons, Bool.and_eq_true] at hs
    by_cases h1 : a = i
    · simp only [Store.read, h1, if_true, Option.some.injEq] at h
      subst h; exact h1 ▸ hs.1
    · simp only [Store.read, h1, if_false] at h
      exact ih hs.2 h

/-! ### The operations over the two stores -/

variable (s : State)

@[simp] theorem magRead_magWrite_same (i : Nat) (v : Word) : magRead (magWrite i v s) i = some v :=
  Store.read_write_same _ _ _

theorem magRead_magWrite_other (i k : Nat) (v : Word) (h : k ≠ i) : magRead (magWrite i v s) k = magRead s k :=
  Store.read_write_other _ _ _ _ h

@[simp] theorem bufRead_magWrite (i k : Nat) (v : Word) : bufRead (magWrite i v s) k = bufRead s k := rfl

@[simp] theorem bufRead_bufWrite_same (j : Nat) (v : Byte) : bufRead (bufWrite j v s) j = some v :=
  Store.read_write_same _ _ _

theorem bufRead_bufWrite_other (j k : Nat) (v : Byte) (h : k ≠ j) : bufRead (bufWrite j v s) k = bufRead s k :=
  Store.read_write_other _ _ _ _ h

@[simp] theorem magRead_bufWrite (j k : Nat) (v : Byte) : magRead (bufWrite j v s) k = magRead s k := rfl

@[simp] theorem magRead_bufWriteAll (bs : List Byte) (k : Nat) : magRead (bufWriteAll bs s) k = magRead s k := rfl

/-- MARSHAL's bytes read back (R107). -/
theorem bufRead_bufWriteAll_inside (bs : List Byte) (k : Nat) (h : k < bs.length) :
    bufRead (bufWriteAll bs s) k = some bs[k] := by
  have := Store.read_writeAll_inside s.mem.buf bs 0 k h
  rwa [Nat.zero_add] at this

/-- Bytes beyond the written prefix are left alone (R107). -/
theorem bufRead_bufWriteAll_outside (bs : List Byte) (k : Nat) (h : bs.length ≤ k) :
    bufRead (bufWriteAll bs s) k = bufRead s k :=
  Store.read_writeAll_outside _ _ _ _ (.inr (by omega))

/-! ### Canonical form and size -/

theorem wf_magWrite (i : Nat) (v : Word) (h : s.mem.wf = true) : (magWrite i v s).mem.wf = true := by
  simp only [Memory.wf, Bool.and_eq_true] at h ⊢
  exact ⟨Store.risingFrom_write _ _ _ _ (Nat.zero_le _) h.1, h.2⟩

theorem wf_bufWrite (j : Nat) (v : Byte) (h : s.mem.wf = true) : (bufWrite j v s).mem.wf = true := by
  simp only [Memory.wf, Bool.and_eq_true] at h ⊢
  exact ⟨h.1, Store.risingFrom_write _ _ _ _ (Nat.zero_le _) h.2⟩

theorem wf_bufWriteAll (bs : List Byte) (h : s.mem.wf = true) : (bufWriteAll bs s).mem.wf = true := by
  simp only [Memory.wf, Bool.and_eq_true] at h ⊢
  exact ⟨h.1, Store.risingFrom_writeAll _ _ _ h.2⟩

theorem fits_magWrite (i : Nat) (v : Word) (hi : i < s.cfg.maxWords) (hv : v.toNat < 2 ^ s.cfg.W)
    (h : s.mem.fits s.cfg = true) : (magWrite i v s).mem.fits s.cfg = true := by
  simp only [Memory.fits, Bool.and_eq_true] at h ⊢
  exact ⟨Store.all_write _ _ _ _ (by simp [hi, hv]) h.1, h.2⟩

theorem fits_bufWrite (j : Nat) (v : Byte) (hj : j < s.cfg.bufBytes) (h : s.mem.fits s.cfg = true) :
    (bufWrite j v s).mem.fits s.cfg = true := by
  simp only [Memory.fits, Bool.and_eq_true] at h ⊢
  exact ⟨h.1, Store.all_write _ _ _ _ (by simp [hj]) h.2⟩

theorem fits_bufWriteAll (bs : List Byte) (hb : bs.length ≤ s.cfg.bufBytes) (h : s.mem.fits s.cfg = true) :
    (bufWriteAll bs s).mem.fits s.cfg = true := by
  simp only [Memory.fits, Bool.and_eq_true] at h ⊢
  exact ⟨h.1, Store.all_writeAll _ _ _ _ (fun k v _ h2 => by simp; omega) h.2⟩

/-- A word that is read is a W-bit word of the build (R30). -/
theorem width_of_magRead {i : Nat} {w : Word} (h : s.mem.fits s.cfg = true) (hr : magRead s i = some w) :
    i < s.cfg.maxWords ∧ w.toNat < 2 ^ s.cfg.W := by
  simp only [Memory.fits, Bool.and_eq_true] at h
  have := Store.of_read _ _ _ _ h.1 hr
  simpa using this

end Sys2Proof.Machine
end

