-- ==== Sys2Proof/Laws/Commands.lean ====
section
/-!
SUPPORT. One spec lemma per shared operation of the commands, and for each command everything it can do: what it answers
in each case of its pseudocode, and, if it answers a next state, which one.
-/
namespace Sys2Proof.Machine

variable {s t : State}

/-! ### The two completions -/

/-- `raise E` is the error completion (R166). -/
theorem endsInError_raise (e : ErrCode) (s : State) : EndsInError e s (raise e s) where
  result := rfl
  err := errField_raised _ _
  fault := by rw [raise_status, faultBit_raised, sticky_eq]
  busy := busyBit_raised _ _
  done := doneBit_raised _ _
  pending := rfl
  reserved := reservedBits_raised _ _
  frame := rfl

/-- `complete` is the successful completion (R167), after any writes that leave STATUS alone. -/
theorem endsInSuccess_complete {s s' : State} (h : s'.status = s.status) : EndsInSuccess s (complete s') where
  err := errField_succeeded _
  fault := by rw [complete_status, faultBit_succeeded, h]
  busy := busyBit_succeeded _
  done := doneBit_succeeded _
  pending := rfl
  reserved := by rw [complete_status, reservedBits_succeeded, h]

/-! ### The operands -/

theorem topWord_of_zero (h : s.magLen.toNat = 0) : topWord s = .empty := by simp [topWord, h]

theorem topWord_of_pos (h : 0 < s.magLen.toNat) :
    topWord s = match magRead s (s.magLen.toNat - 1) with
      | none => .unwritten
      | some t => if t = 0 then .zero else .word t := by
  obtain ⟨n, hn⟩ : ∃ n, s.magLen.toNat = n + 1 := ⟨_, (Nat.succ_pred_eq_of_pos h).symm⟩
  simp only [topWord, hn, Nat.add_sub_cancel]
  all_goals rcases magRead s n with _ | w <;> rfl

theorem topWord_eq_unwritten (h : 0 < s.magLen.toNat) (hr : magRead s (s.magLen.toNat - 1) = none) :
    topWord s = .unwritten := by rw [topWord_of_pos h, hr]

theorem topWord_eq_zero (h : 0 < s.magLen.toNat) (hr : magRead s (s.magLen.toNat - 1) = some 0) :
    topWord s = .zero := by rw [topWord_of_pos h, hr]; rfl

theorem topWord_eq_word {w : Word} (h : 0 < s.magLen.toNat) (hr : magRead s (s.magLen.toNat - 1) = some w)
    (hw : w ≠ 0) : topWord s = .word w := by
  rw [topWord_of_pos h, hr]; exact if_neg hw

/-- What the read of the top word can find, and what each finding says of the state (R34). -/
theorem topWord_cases (s : State) :
    (s.magLen.toNat = 0 ∧ topWord s = .empty) ∨
    (0 < s.magLen.toNat ∧ magRead s (s.magLen.toNat - 1) = none ∧ topWord s = .unwritten) ∨
    (0 < s.magLen.toNat ∧ magRead s (s.magLen.toNat - 1) = some 0 ∧ topWord s = .zero) ∨
    ∃ w, 0 < s.magLen.toNat ∧ magRead s (s.magLen.toNat - 1) = some w ∧ w ≠ 0 ∧ topWord s = .word w := by
  rcases Nat.eq_zero_or_pos s.magLen.toNat with h | h
  · exact .inl ⟨h, topWord_of_zero h⟩
  · rcases hr : magRead s (s.magLen.toNat - 1) with _ | w
    · exact .inr (.inl ⟨h, rfl, topWord_eq_unwritten h hr⟩)
    · by_cases hw : w = 0
      · subst hw; exact .inr (.inr (.inl ⟨h, rfl, topWord_eq_zero h hr⟩))
      · exact .inr (.inr (.inr ⟨w, h, rfl, hw, topWord_eq_word h hr hw⟩))

/-- The words `m (k-1)` down to `m 0`. -/
def descending (m : Nat → Word) : Nat → List Word
  | 0 => []
  | k + 1 => m k :: descending m k

theorem wordsBelow_of_written (m : Nat → Word) (k : Nat) (h : ∀ i, i < k → magRead s i = some (m i)) :
    wordsBelow s k = some (descending m k) := by
  induction k with
  | zero => rfl
  | succ k ih => simp [wordsBelow, descending, h k (by omega), ih fun i hi => h i (by omega)]

theorem wordsBelow_eq_none_iff (s : State) (k : Nat) : wordsBelow s k = none ↔ ∃ i, i < k ∧ magRead s i = none := by
  induction k with
  | zero => simp [wordsBelow]
  | succ k ih =>
    constructor
    · intro h
      rcases hr : magRead s k with _ | w
      · exact ⟨k, by omega, hr⟩
      · rcases hb : wordsBelow s k with _ | ws
        · obtain ⟨i, hi, hn⟩ := ih.1 hb
          exact ⟨i, by omega, hn⟩
        · simp [wordsBelow, hr, hb] at h
    · rintro ⟨i, hi, hn⟩
      rcases Nat.lt_succ_iff_lt_or_eq.1 hi with h | rfl
      · simp only [wordsBelow, ih.2 ⟨i, h, hn⟩]; split <;> simp_all
      · simp only [wordsBelow, hn]

theorem length_of_wordsBelow {k : Nat} {ws : List Word} (h : wordsBelow s k = some ws) : ws.length = k := by
  induction k generalizing ws with
  | zero => simp only [wordsBelow, Option.some.injEq] at h; subst h; rfl
  | succ k ih =>
    rcases hr : magRead s k with _ | w <;> rcases hb : wordsBelow s k with _ | vs <;>
      simp only [wordsBelow, hr, hb, reduceCtorEq, Option.some.injEq] at h
    subst h; simp [ih hb]

/-- The bytes of the words below word `k`: byte `p % B` of word `p / B`, counted from the top (R58, R110). -/
theorem getElem?_lowerBytes (c : Config) (m : Nat → Word) (k j : Nat) (hj : j < k * c.B) :
    ((descending m k).flatMap (lowBytes c.B))[j]? =
      some (byte (m ((k * c.B - 1 - j) / c.B)) ((k * c.B - 1 - j) % c.B)) := by
  have hB := Config.B_pos c
  induction k generalizing j with
  | zero => omega
  | succ k ih =>
    have e : (k + 1) * c.B = k * c.B + c.B := by ring
    rw [descending, List.flatMap_cons]
    by_cases hlt : j < c.B
    · rw [List.getElem?_append_left (by simpa using hlt), List.getElem?_eq_getElem (by simpa using hlt),
        getElem_lowBytes, e, show k * c.B + c.B - 1 - j = (c.B - 1 - j) + c.B * k by rw [Nat.mul_comm c.B k]; omega,
        Nat.add_mul_div_left _ _ hB, Nat.div_eq_of_lt (by omega), Nat.zero_add, Nat.add_mul_mod_self_left,
        Nat.mod_eq_of_lt (by omega)]
    · rw [List.getElem?_append_right (by simpa using hlt), length_lowBytes, ih _ (by omega), e,
        show k * c.B + c.B - 1 - j = k * c.B - 1 - (j - c.B) by omega]

theorem length_flatMap_lowBytes (b : Nat) (ws : List Word) : (ws.flatMap (lowBytes b)).length = ws.length * b := by
  induction ws with
  | nil => simp
  | cons w ws ih => rw [List.flatMap_cons, List.length_append, ih, length_lowBytes, List.length_cons]; ring

theorem lzb_le (c : Config) (w : Word) : lzb c w ≤ c.B := leadingZeroBytes_le _ _

/-- MARSHAL emits L bytes (R102 "here j = L"). -/
theorem length_encodedBytes (c : Config) (n : Nat) (hn : 0 < n) (w : Word) (lower : List Word)
    (hl : lower.length = n - 1) : (encodedBytes c w lower).length = encodedLength c n w := by
  have := lzb_le c w
  have e : n * c.B = (n - 1) * c.B + c.B := by
    obtain ⟨k, rfl⟩ : ∃ k, n = k + 1 := ⟨n - 1, by omega⟩
    rw [Nat.add_sub_cancel]; ring
  rw [encodedBytes, List.length_append, length_lowBytes, length_flatMap_lowBytes, hl, encodedLength, e]
  omega

/-- MARSHAL's byte `j`: with `p = L-1-j`, byte `p % B` of word `p / B` (R102, R106). -/
theorem getElem?_encodedBytes (c : Config) (m : Nat → Word) (n : Nat) (hn : 0 < n) (j : Nat)
    (hj : j < encodedLength c n (m (n - 1))) :
    (encodedBytes c (m (n - 1)) (descending m (n - 1)))[j]? =
      some (byte (m ((encodedLength c n (m (n - 1)) - 1 - j) / c.B)) ((encodedLength c n (m (n - 1)) - 1 - j) % c.B)) := by
  have hB := Config.B_pos c
  have hz := lzb_le c (m (n - 1))
  obtain ⟨k, rfl⟩ : ∃ k, n = k + 1 := ⟨n - 1, by omega⟩
  simp only [Nat.add_sub_cancel, encodedLength, encodedBytes] at *
  have e : (k + 1) * c.B = k * c.B + c.B := by ring
  rw [e] at hj ⊢
  by_cases hlt : j < c.B - lzb c (m k)
  · rw [List.getElem?_append_left (by simpa using hlt), List.getElem?_eq_getElem (by simpa using hlt),
      getElem_lowBytes, show k * c.B + c.B - lzb c (m k) - 1 - j = (c.B - lzb c (m k) - 1 - j) + c.B * k by
        rw [Nat.mul_comm c.B k]; omega,
      Nat.add_mul_div_left _ _ hB, Nat.div_eq_of_lt (by omega), Nat.zero_add, Nat.add_mul_mod_self_left,
      Nat.mod_eq_of_lt (by omega)]
  · rw [List.getElem?_append_right (by simpa using hlt), length_lowBytes, getElem?_lowerBytes c m k _ (by omega),
      show k * c.B + c.B - lzb c (m k) - 1 - j = k * c.B - 1 - (j - (c.B - lzb c (m k))) by omega]

/-- The loop of R141: it ends at `i` when the words from `i` up are 0 and written, and `i` is 0 or word `i-1` is not 0. -/
theorem lengthWithoutTopZeros_eq_some_iff (s : State) (k i : Nat) :
    lengthWithoutTopZeros s k = some i ↔
      i ≤ k ∧ (∀ j, i ≤ j → j < k → magRead s j = some 0) ∧ (i = 0 ∨ ∃ w, magRead s (i - 1) = some w ∧ w ≠ 0) := by
  induction k with
  | zero =>
    simp only [lengthWithoutTopZeros, Option.some.injEq]
    constructor
    · rintro rfl; exact ⟨le_rfl, fun j _ h => absurd h (by omega), .inl rfl⟩
    · rintro ⟨h, -, -⟩; omega
  | succ k ih =>
    rcases hr : magRead s k with _ | w
    · simp only [lengthWithoutTopZeros, hr, reduceCtorEq, false_iff]
      rintro ⟨h1, h2, h3⟩
      by_cases hi : i ≤ k
      · have := h2 k hi (by omega); rw [hr] at this; exact absurd this (by simp)
      · obtain rfl : i = k + 1 := by omega
        rcases h3 with h3 | ⟨w, hw, -⟩
        · omega
        · rw [Nat.add_sub_cancel, hr] at hw; exact absurd hw (by simp)
    · by_cases hw : w = 0
      · subst hw
        simp only [lengthWithoutTopZeros, hr, if_true, ih]
        constructor
        · rintro ⟨h1, h2, h3⟩
          refine ⟨by omega, fun j hj hk => ?_, h3⟩
          rcases Nat.lt_succ_iff_lt_or_eq.1 hk with h | rfl
          · exact h2 j hj h
          · exact hr
        · rintro ⟨h1, h2, h3⟩
          have hi : i ≤ k := by
            by_contra hi
            obtain rfl : i = k + 1 := by omega
            rcases h3 with h3 | ⟨w, hw, hw0⟩
            · omega
            · rw [Nat.add_sub_cancel, hr] at hw; exact hw0 (Option.some.inj hw).symm
          exact ⟨hi, fun j hj hk => h2 j hj (by omega), h3⟩
      · simp only [lengthWithoutTopZeros, hr, if_neg hw, Option.some.injEq]
        constructor
        · rintro rfl
          exact ⟨le_rfl, fun j h1 h2 => absurd h2 (by omega), .inr ⟨w, by rw [Nat.add_sub_cancel, hr], hw⟩⟩
        · rintro ⟨h1, h2, h3⟩
          by_contra hne
          have := h2 k (by omega) (by omega)
          rw [hr] at this; exact hw (Option.some.inj this)

/-- The loop of R141 reads an unwritten word exactly when the first word from the top that is not a written 0 is
unwritten. -/
theorem lengthWithoutTopZeros_eq_none_iff (s : State) (k : Nat) :
    lengthWithoutTopZeros s k = none ↔
      ∃ i, i < k ∧ (∀ j, i < j → j < k → magRead s j = some 0) ∧ magRead s i = none := by
  induction k with
  | zero => simp [lengthWithoutTopZeros]
  | succ k ih =>
    rcases hr : magRead s k with _ | w
    · simp only [lengthWithoutTopZeros, hr, true_iff]
      exact ⟨k, by omega, fun j h1 h2 => absurd h2 (by omega), hr⟩
    · by_cases hw : w = 0
      · subst hw
        simp only [lengthWithoutTopZeros, hr, if_true, ih]
        constructor
        · rintro ⟨i, h1, h2, h3⟩
          refine ⟨i, by omega, fun j hj hk => ?_, h3⟩
          rcases Nat.lt_succ_iff_lt_or_eq.1 hk with h | rfl
          · exact h2 j hj h
          · exact hr
        · rintro ⟨i, h1, h2, h3⟩
          rcases Nat.lt_succ_iff_lt_or_eq.1 h1 with h | rfl
          · exact ⟨i, h, fun j hj hk => h2 j hj (by omega), h3⟩
          · rw [hr] at h3; exact absurd h3 (by simp)
      · simp only [lengthWithoutTopZeros, hr, if_neg hw, reduceCtorEq, false_iff]
        rintro ⟨i, h1, h2, h3⟩
        rcases Nat.lt_succ_iff_lt_or_eq.1 h1 with h | rfl
        · have := h2 k h (by omega); rw [hr] at this; exact hw (Option.some.inj this)
        · rw [hr] at h3; exact absurd h3 (by simp)

/-! ### What each command answers, case by case -/

theorem execMarshal_badLength (h : s.cfg.maxWords < s.magLen.toNat) : execMarshal s = .next (raise .badOperand s) :=
  if_pos h

theorem execMarshal_badCapacity (h : s.cfg.bufBytes < s.bufCap.toNat) :
    execMarshal s = .next (raise .badOperand s) := by
  unfold execMarshal; split_ifs <;> rfl

/-- MARSHAL past its bounds checks. -/
theorem execMarshal_inBounds (h1 : s.magLen.toNat ≤ s.cfg.maxWords) (h2 : s.bufCap.toNat ≤ s.cfg.bufBytes) :
    execMarshal s = match topWord s with
      | .empty => .next (complete (setResult 0x00000000 s))
      | .unwritten => .fault .unwrittenRead
      | .zero => .next (raise .nonCanonical s)
      | .word t => marshalWords t s := by
  rw [execMarshal, if_neg (by omega), if_neg (by omega)]
  all_goals rcases topWord s with _ | _ | _ | _ <;> rfl

theorem execMaxlen_badLength (h : s.cfg.maxWords < s.magLen.toNat) : execMaxlen s = .next (raise .badOperand s) :=
  if_pos h

/-- MAXLEN past its bounds check. -/
theorem execMaxlen_inBounds (h1 : s.magLen.toNat ≤ s.cfg.maxWords) :
    execMaxlen s = match topWord s with
      | .empty => .next (completeMaxlen s)
      | .unwritten => .fault .unwrittenRead
      | .zero => .next (raise .nonCanonical s)
      | .word _ => .next (completeMaxlen s) := by
  rw [execMaxlen, if_neg (by omega)]
  all_goals rcases topWord s with _ | _ | _ | _ <;> rfl

theorem execTrunc256_badLength (h : s.cfg.maxWords < s.magLen.toNat) :
    execTrunc256 s = .next (raise .badOperand s) := if_pos h

/-- TRUNC256 past its bounds check. -/
theorem execTrunc256_inBounds (h1 : s.magLen.toNat ≤ s.cfg.maxWords) :
    execTrunc256 s = match topWord s with
      | .empty => truncateWords s
      | .unwritten => .fault .unwrittenRead
      | .zero => .next (raise .nonCanonical s)
      | .word _ => truncateWords s := by
  rw [execTrunc256, if_neg (by omega)]
  all_goals rcases topWord s with _ | _ | _ | _ <;> rfl

theorem execMarshal_zero (h1 : s.bufCap.toNat ≤ s.cfg.bufBytes) (h0 : s.magLen.toNat = 0) :
    execMarshal s = .next (complete (setResult 0x00000000 s)) := by
  rw [execMarshal_inBounds (by omega) h1, topWord_of_zero h0]

theorem execMarshal_unwritten (h1 : s.magLen.toNat ≤ s.cfg.maxWords) (h2 : s.bufCap.toNat ≤ s.cfg.bufBytes)
    (hn : 0 < s.magLen.toNat) (hr : magRead s (s.magLen.toNat - 1) = none) :
    execMarshal s = .fault .unwrittenRead := by
  rw [execMarshal_inBounds h1 h2, topWord_eq_unwritten hn hr]

theorem execMarshal_nonCanonical (h1 : s.magLen.toNat ≤ s.cfg.maxWords) (h2 : s.bufCap.toNat ≤ s.cfg.bufBytes)
    (hn : 0 < s.magLen.toNat) (hr : magRead s (s.magLen.toNat - 1) = some 0) :
    execMarshal s = .next (raise .nonCanonical s) := by
  rw [execMarshal_inBounds h1 h2, topWord_eq_zero hn hr]

theorem execMarshal_word {w : Word} (h1 : s.magLen.toNat ≤ s.cfg.maxWords) (h2 : s.bufCap.toNat ≤ s.cfg.bufBytes)
    (hn : 0 < s.magLen.toNat) (hr : magRead s (s.magLen.toNat - 1) = some w) (hw : w ≠ 0) :
    execMarshal s = marshalWords w s := by
  rw [execMarshal_inBounds h1 h2, topWord_eq_word hn hr hw]

theorem marshalWords_tooSmall {w : Word} (h : s.bufCap.toNat < encodedLength s.cfg s.magLen.toNat w) :
    marshalWords w s = .next (raise .bufferTooSmall s) := if_pos h

theorem marshalWords_unwritten {w : Word} (h : encodedLength s.cfg s.magLen.toNat w ≤ s.bufCap.toNat)
    (hr : wordsBelow s (s.magLen.toNat - 1) = none) : marshalWords w s = .fault .unwrittenRead := by
  rw [marshalWords, if_neg (by omega), hr]

theorem marshalWords_done {w : Word} {lower : List Word}
    (h : encodedLength s.cfg s.magLen.toNat w ≤ s.bufCap.toNat)
    (hr : wordsBelow s (s.magLen.toNat - 1) = some lower) :
    marshalWords w s = .next (complete (setResult (BitVec.ofNat 32 (encodedLength s.cfg s.magLen.toNat w))
      (bufWriteAll (encodedBytes s.cfg w lower) s))) := by
  rw [marshalWords, if_neg (by omega), hr]

theorem execMaxlen_unwritten (h1 : s.magLen.toNat ≤ s.cfg.maxWords) (hn : 0 < s.magLen.toNat)
    (hr : magRead s (s.magLen.toNat - 1) = none) : execMaxlen s = .fault .unwrittenRead := by
  rw [execMaxlen_inBounds h1, topWord_eq_unwritten hn hr]

theorem execMaxlen_nonCanonical (h1 : s.magLen.toNat ≤ s.cfg.maxWords) (hn : 0 < s.magLen.toNat)
    (hr : magRead s (s.magLen.toNat - 1) = some 0) : execMaxlen s = .next (raise .nonCanonical s) := by
  rw [execMaxlen_inBounds h1, topWord_eq_zero hn hr]

theorem execMaxlen_canonical (h1 : s.magLen.toNat ≤ s.cfg.maxWords)
    (h : s.magLen.toNat = 0 ∨ ∃ w, magRead s (s.magLen.toNat - 1) = some w ∧ w ≠ 0) :
    execMaxlen s = .next (completeMaxlen s) := by
  rw [execMaxlen_inBounds h1]
  rcases Nat.eq_zero_or_pos s.magLen.toNat with h0 | hn
  · rw [topWord_of_zero h0]
  · obtain ⟨w, hr, hw⟩ := h.resolve_left (by omega)
    rw [topWord_eq_word hn hr hw]

theorem execTrunc256_unwritten (h1 : s.magLen.toNat ≤ s.cfg.maxWords) (hn : 0 < s.magLen.toNat)
    (hr : magRead s (s.magLen.toNat - 1) = none) : execTrunc256 s = .fault .unwrittenRead := by
  rw [execTrunc256_inBounds h1, topWord_eq_unwritten hn hr]

theorem execTrunc256_nonCanonical (h1 : s.magLen.toNat ≤ s.cfg.maxWords) (hn : 0 < s.magLen.toNat)
    (hr : magRead s (s.magLen.toNat - 1) = some 0) : execTrunc256 s = .next (raise .nonCanonical s) := by
  rw [execTrunc256_inBounds h1, topWord_eq_zero hn hr]

theorem execTrunc256_canonical (h1 : s.magLen.toNat ≤ s.cfg.maxWords)
    (h : s.magLen.toNat = 0 ∨ ∃ w, magRead s (s.magLen.toNat - 1) = some w ∧ w ≠ 0) :
    execTrunc256 s = truncateWords s := by
  rw [execTrunc256_inBounds h1]
  rcases Nat.eq_zero_or_pos s.magLen.toNat with h0 | hn
  · rw [topWord_of_zero h0]
  · obtain ⟨w, hr, hw⟩ := h.resolve_left (by omega)
    rw [topWord_eq_word hn hr hw]

theorem truncateWords_short (h : s.magLen.toNat ≤ s.cfg.K) :
    truncateWords s = .next (complete (setResult 0x00000000 s)) := if_neg (by omega)

theorem truncateWords_unwritten (h : s.cfg.K < s.magLen.toNat) (hr : lengthWithoutTopZeros s s.cfg.K = none) :
    truncateWords s = .fault .unwrittenRead := by
  rw [truncateWords, if_pos h, hr]

theorem truncateWords_done {m : Nat} (h : s.cfg.K < s.magLen.toNat)
    (hr : lengthWithoutTopZeros s s.cfg.K = some m) :
    truncateWords s = .next (complete (setResult 0x00000000 (setMagLen (BitVec.ofNat 32 m) s))) := by
  rw [truncateWords, if_pos h, hr]

/-! ### If a command answers a next state, which -/

/-- MARSHAL ends in an error, or writes some bytes from BUF[0] on that fit the capacity, their number to RESULT, and
succeeds. -/
theorem execMarshal_next (h : execMarshal s = .next t) :
    (∃ e, t = raise e s) ∨
    ∃ bs : List Byte, t = complete (setResult (BitVec.ofNat 32 bs.length) (bufWriteAll bs s)) ∧
      s.magLen.toNat ≤ s.cfg.maxWords ∧ s.bufCap.toNat ≤ s.cfg.bufBytes ∧ bs.length ≤ s.bufCap.toNat ∧
      bs.length ≤ s.magLen.toNat * s.cfg.B := by
  by_cases h1 : s.cfg.maxWords < s.magLen.toNat
  · rw [execMarshal_badLength h1] at h; cases h; exact .inl ⟨_, rfl⟩
  by_cases h2 : s.cfg.bufBytes < s.bufCap.toNat
  · rw [execMarshal_badCapacity h2] at h; cases h; exact .inl ⟨_, rfl⟩
  rw [execMarshal_inBounds (by omega) (by omega)] at h
  rcases topWord_cases s with ⟨_, ht⟩ | ⟨_, _, ht⟩ | ⟨_, _, ht⟩ | ⟨w, hn, _, _, ht⟩ <;> rw [ht] at h
  · cases h
    exact .inr ⟨[], rfl, by omega, by omega, Nat.zero_le _, Nat.zero_le _⟩
  · cases h
  · cases h; exact .inl ⟨_, rfl⟩
  · simp only [marshalWords] at h
    split at h
    · cases h; exact .inl ⟨_, rfl⟩
    · rename_i hlen
      split at h
      · cases h
      · rename_i lower hl
        cases h
        have hlength := length_encodedBytes s.cfg _ hn w lower (length_of_wordsBelow hl)
        refine .inr ⟨encodedBytes s.cfg w lower, by rw [hlength], by omega, by omega, by omega, ?_⟩
        rw [hlength]; exact Nat.sub_le _ _

/-- MAXLEN ends in an error, or writes RESULT and succeeds. -/
theorem execMaxlen_next (h : execMaxlen s = .next t) :
    (∃ e, t = raise e s) ∨ (t = completeMaxlen s ∧ s.magLen.toNat ≤ s.cfg.maxWords) := by
  by_cases h1 : s.cfg.maxWords < s.magLen.toNat
  · rw [execMaxlen_badLength h1] at h; cases h; exact .inl ⟨_, rfl⟩
  rw [execMaxlen_inBounds (by omega)] at h
  rcases topWord_cases s with ⟨_, ht⟩ | ⟨_, _, ht⟩ | ⟨_, _, ht⟩ | ⟨w, _, _, _, ht⟩ <;> rw [ht] at h <;> cases h
  · exact .inr ⟨rfl, by omega⟩
  · exact .inl ⟨_, rfl⟩
  · exact .inr ⟨rfl, by omega⟩

/-- What TRUNC256 of a canonical magnitude answers. -/
theorem truncateWords_next (h : truncateWords s = .next t) :
    (s.magLen.toNat ≤ s.cfg.K ∧ t = complete (setResult 0x00000000 s)) ∨
    (s.cfg.K < s.magLen.toNat ∧ ∃ m, lengthWithoutTopZeros s s.cfg.K = some m ∧
      t = complete (setResult 0x00000000 (setMagLen (BitVec.ofNat 32 m) s))) := by
  unfold truncateWords at h
  split at h
  · rename_i hk
    split at h
    · cases h
    · rename_i m hm; cases h; exact .inr ⟨hk, m, hm, rfl⟩
  · cases h; exact .inl ⟨by omega, rfl⟩

/-- TRUNC256 ends in an error, or, on a magnitude that is zero or has a top word other than 0, truncates. -/
theorem execTrunc256_next (h : execTrunc256 s = .next t) :
    (∃ e, t = raise e s) ∨
    (truncateWords s = .next t ∧ s.magLen.toNat ≤ s.cfg.maxWords ∧
      (s.magLen.toNat = 0 ∨ ∃ w, magRead s (s.magLen.toNat - 1) = some w ∧ w ≠ 0)) := by
  by_cases h1 : s.cfg.maxWords < s.magLen.toNat
  · rw [execTrunc256_badLength h1] at h; cases h; exact .inl ⟨_, rfl⟩
  rw [execTrunc256_inBounds (by omega)] at h
  rcases topWord_cases s with ⟨h0, ht⟩ | ⟨_, _, ht⟩ | ⟨_, _, ht⟩ | ⟨w, _, hr, hw, ht⟩ <;> rw [ht] at h
  · exact .inr ⟨h, by omega, .inl h0⟩
  · cases h
  · cases h; exact .inl ⟨_, rfl⟩
  · exact .inr ⟨h, by omega, .inr ⟨w, hr, hw⟩⟩

/-- Every command that answers a next state ends in an error or succeeds; a success leaves all but BUF, MAG_LEN, RESULT,
STATUS and PENDING alone. -/
theorem exec_next {i : Instr} (h : exec i s = .next t) :
    (∃ e, t = raise e s) ∨
    ∃ s', t = complete s' ∧
      s' = { s with mem := { s.mem with buf := s'.mem.buf }, magLen := s'.magLen, result := s'.result } := by
  cases i with
  | marshal =>
    rcases execMarshal_next h with h | ⟨bs, rfl, -⟩
    · exact .inl h
    · exact .inr ⟨_, rfl, rfl⟩
  | maxlen =>
    rcases execMaxlen_next h with h | ⟨rfl, -⟩
    · exact .inl h
    · exact .inr ⟨_, rfl, rfl⟩
  | trunc256 =>
    rcases execTrunc256_next h with h | ⟨ht, -⟩
    · exact .inl h
    · rcases truncateWords_next ht with ⟨-, rfl⟩ | ⟨-, m, -, rfl⟩
      · exact .inr ⟨_, rfl, rfl⟩
      · exact .inr ⟨_, rfl, rfl⟩

end Sys2Proof.Machine
end

