-- ==== Sys2Proof/Laws/PerInstr.lean ====
section
/-!
SUPPORT. Facts stated of every instruction, one lemma per constructor.
-/
namespace Sys2Proof.Laws

/-- EncodeFields: a command's word has RSV = 0 and its own OP (R71, R72, R74). -/
def EncodeFields.Statement (i : Instr) : Prop :=
  rsvField (encode i) = 0 ∧ opField (encode i) = opcode i ∧ i.wellFormed = true

theorem EncodeFields.marshal : EncodeFields.Statement .marshal := by unfold EncodeFields.Statement; decide

theorem EncodeFields.maxlen : EncodeFields.Statement .maxlen := by unfold EncodeFields.Statement; decide

theorem EncodeFields.trunc256 : EncodeFields.Statement .trunc256 := by unfold EncodeFields.Statement; decide

end Sys2Proof.Laws
end

