-- ==== Sys2Proof/Laws/Step.lean ====
section
/-!
SUPPORT. Whose turn a step is, and everything a turn can do: one lemma per agent's move, and one for a host access.
-/
namespace Sys2Proof.Machine

variable {s s1 t : State}

/-! ### Whose turn it is -/

theorem step_of_core (h : CoreToMove s s1) : step s = coreTurn s1 := by
  rcases h with ⟨rest, hs, rfl⟩ | ⟨hs, hp, rfl⟩
  · rw [step, nextMove, hs]; rfl
  · rw [step, nextMove, hs]; exact if_pos hp

theorem step_of_host (h : HostToMove s s1) : step s = hostTurn s1 := by
  rcases h with ⟨rest, hs, rfl⟩ | ⟨hs, hp, rfl⟩
  · rw [step, nextMove, hs]; rfl
  · rw [step, nextMove, hs]; exact if_neg (by simp [hp])

theorem step_of_reset {rest : List Turn} (h : s.sched = .reset :: rest) :
    step s = .next (assertReset { s with sched := rest }) := by
  rw [step, nextMove, h]; rfl

/-- Every step is the host's move, the core's, or reset. -/
theorem turn_cases (s : State) :
    (∃ s1, HostToMove s s1) ∨ (∃ s1, CoreToMove s s1) ∨ ∃ rest, s.sched = .reset :: rest := by
  rcases hs : s.sched with _ | ⟨t, rest⟩
  · rcases hp : s.pending with _ | _
    · exact .inl ⟨s, .inr ⟨hs, hp, rfl⟩⟩
    · exact .inr (.inl ⟨s, .inr ⟨hs, hp, rfl⟩⟩)
  · cases t
    · exact .inl ⟨_, .inl ⟨rest, hs, rfl⟩⟩
    · exact .inr (.inl ⟨_, .inl ⟨rest, hs, rfl⟩⟩)
    · exact .inr (.inr ⟨rest, rfl⟩)

/-- Taking a turn changes nothing but the schedule. -/
theorem HostToMove.frame (h : HostToMove s s1) : s1 = { s with sched := s1.sched } := by
  rcases h with ⟨_, _, rfl⟩ | ⟨_, _, rfl⟩ <;> rfl

theorem CoreToMove.frame (h : CoreToMove s s1) : s1 = { s with sched := s1.sched } := by
  rcases h with ⟨_, _, rfl⟩ | ⟨_, _, rfl⟩ <;> rfl

/-! ### The core's move -/

theorem coreTurn_idle (h : s.pending = false) : coreTurn s = .next s := if_neg (by simp [h])

theorem coreTurn_command {i : Instr} (h : s.pending = true) (hd : decode s.cmdlat = .command i) :
    coreTurn s = exec i s := by rw [coreTurn, if_pos h, performCommand, hd]

theorem coreTurn_illegal {why : IllegalWord} (h : s.pending = true) (hd : decode s.cmdlat = .illegal why) :
    coreTurn s = .next (raise .illegalCommand s) := by rw [coreTurn, if_pos h, performCommand, hd]

/-- If the core's move answers a next state: nothing was pending, or a command or an illegal word was performed. -/
theorem coreTurn_next (h : coreTurn s = .next t) :
    (s.pending = false ∧ t = s) ∨
    (s.pending = true ∧ ∃ i, decode s.cmdlat = .command i ∧ exec i s = .next t) ∨
    (s.pending = true ∧ t = raise .illegalCommand s) := by
  rcases hp : s.pending with _ | _
  · rw [coreTurn_idle hp] at h; cases h; exact .inl ⟨rfl, rfl⟩
  · rcases hd : decode s.cmdlat with i | why
    · rw [coreTurn_command hp hd] at h; exact .inr (.inl ⟨rfl, i, rfl, h⟩)
    · rw [coreTurn_illegal hp hd] at h; cases h; exact .inr (.inr ⟨rfl, rfl⟩)

/-! ### Stops -/

/-- No command is refused, and no command makes a host race. -/
theorem exec_stops (i : Instr) (s : State) : (∃ t, exec i s = .next t) ∨ exec i s = .fault .unwrittenRead := by
  cases i with
  | marshal =>
    change (∃ t, execMarshal s = .next t) ∨ execMarshal s = .fault .unwrittenRead
    unfold execMarshal marshalWords
    split_ifs
    · exact .inl ⟨_, rfl⟩
    · exact .inl ⟨_, rfl⟩
    · rcases topWord s with _ | _ | _ | w
      · exact .inl ⟨_, rfl⟩
      · exact .inr rfl
      · exact .inl ⟨_, rfl⟩
      · dsimp only
        split
        · exact .inl ⟨_, rfl⟩
        · rcases wordsBelow s (s.magLen.toNat - 1) with _ | ws
          · exact .inr rfl
          · exact .inl ⟨_, rfl⟩
  | maxlen =>
    change (∃ t, execMaxlen s = .next t) ∨ execMaxlen s = .fault .unwrittenRead
    unfold execMaxlen
    split_ifs
    · exact .inl ⟨_, rfl⟩
    · rcases topWord s with _ | _ | _ | w
      · exact .inl ⟨_, rfl⟩
      · exact .inr rfl
      · exact .inl ⟨_, rfl⟩
      · exact .inl ⟨_, rfl⟩
  | trunc256 =>
    have ht : (∃ t, truncateWords s = .next t) ∨ truncateWords s = .fault .unwrittenRead := by
      unfold truncateWords
      split_ifs
      · rcases lengthWithoutTopZeros s s.cfg.K with _ | m
        · exact .inr rfl
        · exact .inl ⟨_, rfl⟩
      · exact .inl ⟨_, rfl⟩
    change (∃ t, execTrunc256 s = .next t) ∨ execTrunc256 s = .fault .unwrittenRead
    unfold execTrunc256
    split_ifs
    · exact .inl ⟨_, rfl⟩
    · rcases topWord s with _ | _ | _ | w
      · exact ht
      · exact .inr rfl
      · exact .inl ⟨_, rfl⟩
      · exact ht

/-- A core turn answers a next state or UNWRITTEN_READ. -/
theorem coreTurn_stops (s : State) : (∃ t, coreTurn s = .next t) ∨ coreTurn s = .fault .unwrittenRead := by
  rcases hp : s.pending with _ | _
  · exact .inl ⟨_, coreTurn_idle hp⟩
  · rcases hd : decode s.cmdlat with i | why
    · rw [coreTurn_command hp hd]; exact exec_stops i s
    · exact .inl ⟨_, coreTurn_illegal hp hd⟩

/-- A host access answers a next state, UNWRITTEN_READ, or, while BUSY, HOST_RACE. -/
theorem hostAccess_stops (a : HostAccess) (s : State) :
    (∃ t, hostAccess a s = .next t) ∨ hostAccess a s = .fault .unwrittenRead ∨
      (busyBit s.status = true ∧ hostAccess a s = .fault .hostRace) := by
  unfold hostAccess
  split
  · rename_i h
    simp only [Bool.and_eq_true] at h
    exact .inr (.inr ⟨h.1, rfl⟩)
  · cases a with
    | csrw off v => exact .inl ⟨_, rfl⟩
    | csrr off => exact .inl ⟨_, rfl⟩
    | magw i v => exact .inl ⟨_, rfl⟩
    | bufw j v => exact .inl ⟨_, rfl⟩
    | magr i =>
      simp only [performAccess, hostMagRead]
      split_ifs
      · rcases magRead s i.toNat with _ | v
        · exact .inr (.inl rfl)
        · exact .inl ⟨_, rfl⟩
      · exact .inl ⟨_, rfl⟩
    | bufr j =>
      simp only [performAccess, hostBufRead]
      split_ifs
      · rcases bufRead s j.toNat with _ | v
        · exact .inr (.inl rfl)
        · exact .inl ⟨_, rfl⟩
      · exact .inl ⟨_, rfl⟩

/-! ### The host's move -/

theorem hostAccess_idle (a : HostAccess) (h : busyBit s.status = false) : hostAccess a s = performAccess a s :=
  if_neg (by simp [h])

theorem hostAccess_allowed {a : HostAccess} (h : a.allowedWhileBusy = true) : hostAccess a s = performAccess a s :=
  if_neg (by simp [h])

theorem hostAccess_race {a : HostAccess} (hb : busyBit s.status = true) (h : a.allowedWhileBusy = false) :
    hostAccess a s = .fault .hostRace := if_pos (by simp [hb, h])

/-- Everything one host access can do when it answers a next state: a read hands a value to the host; a write is ignored,
starts a command, stores a register, a word or a byte. -/
theorem hostAccess_next {a : HostAccess} (h : hostAccess a s = .next t) :
    (∃ r, t = reply r s) ∨
    (busyBit s.status = false ∧
      (t = s ∨ (∃ c, a = .csrw 0x00 c ∧ t = startCommand c s) ∨ (∃ v, t = { s with magLen := v }) ∨
        (∃ v, t = { s with bufCap := v }) ∨
        (∃ i v, a = .magw i v ∧ i.toNat < s.cfg.maxWords ∧ t = magWrite i.toNat (toPortWidth s.cfg v) s) ∨
        ∃ j v, a = .bufw j v ∧ j.toNat < s.cfg.bufBytes ∧ t = bufWrite j.toNat v s)) := by
  have hbusy : busyBit s.status = false ∨ a.allowedWhileBusy = true := by
    by_contra hc
    push Not at hc
    rw [hostAccess_race (by simpa using hc.1) (by simpa using hc.2)] at h
    cases h
  have h' : performAccess a s = .next t := by
    rcases hbusy with hb | hb
    · rwa [hostAccess_idle a hb] at h
    · rwa [hostAccess_allowed hb] at h
  cases a with
  | csrw off v =>
    simp only [performAccess, Host.Outcome.next.injEq] at h'
    refine .inr ⟨by simpa [HostAccess.allowedWhileBusy] using hbusy, ?_⟩
    rw [← h', csrWrite]
    split_ifs with h0 h1 h2
    · exact .inr (.inl ⟨v, by rw [h0], rfl⟩)
    · exact .inr (.inr (.inl ⟨v, rfl⟩))
    · exact .inr (.inr (.inr (.inl ⟨v, rfl⟩)))
    · exact .inl rfl
  | csrr off => simp only [performAccess, Host.Outcome.next.injEq] at h'; exact .inl ⟨_, h'.symm⟩
  | magw i v =>
    simp only [performAccess, Host.Outcome.next.injEq] at h'
    refine .inr ⟨by simpa [HostAccess.allowedWhileBusy] using hbusy, ?_⟩
    rw [← h', hostMagWrite]
    split_ifs with hi
    · exact .inr (.inr (.inr (.inr (.inl ⟨i, v, rfl, hi, rfl⟩))))
    · exact .inl rfl
  | bufw j v =>
    simp only [performAccess, Host.Outcome.next.injEq] at h'
    refine .inr ⟨by simpa [HostAccess.allowedWhileBusy] using hbusy, ?_⟩
    rw [← h', hostBufWrite]
    split_ifs with hj
    · exact .inr (.inr (.inr (.inr (.inr ⟨j, v, rfl, hj, rfl⟩))))
    · exact .inl rfl
  | magr i =>
    simp only [performAccess, hostMagRead] at h'
    split_ifs at h'
    · rcases hr : magRead s i.toNat with _ | v <;> rw [hr] at h' <;> cases h'
      exact .inl ⟨_, rfl⟩
    · cases h'; exact .inl ⟨_, rfl⟩
  | bufr j =>
    simp only [performAccess, hostBufRead] at h'
    split_ifs at h'
    · rcases hr : bufRead s j.toNat with _ | v <;> rw [hr] at h' <;> cases h'
      exact .inl ⟨_, rfl⟩
    · cases h'; exact .inl ⟨_, rfl⟩

theorem hostTurn_done (h : s.host = []) : hostTurn s = .next s := by rw [hostTurn, h]

theorem hostTurn_access {a : HostAccess} {rest : List HostStmt} (h : s.host = .access a :: rest) :
    hostTurn s = hostAccess a { s with host := rest } := by rw [hostTurn, h]

/-- `wait` reads STATUS, and goes on when bit 0 of the value read is 0 (R79). -/
theorem hostTurn_wait {rest : List HostStmt} (h : s.host = .wait :: rest) :
    hostTurn s =
      .next (reply (.csr 0x04 s.status) (if busyBit s.status then s else { s with host := rest })) := by
  rw [hostTurn, h]
  have e : csrRead 0x04 s = s.status := rfl
  have e' : csrRead 0x04 { s with host := rest } = s.status := rfl
  simp only [e]
  split_ifs <;> rw [hostAccess_allowed rfl, performAccess]
  · rw [e]
  · rw [e']

/-- If the host's move answers a next state: it had no statement left, made an access, or polled STATUS. -/
theorem hostTurn_next (h : hostTurn s = .next t) :
    t = s ∨ (∃ a rest, s.host = .access a :: rest ∧ hostAccess a { s with host := rest } = .next t) ∨
    ∃ r l, t = { reply r s with host := l } := by
  rcases hs : s.host with _ | ⟨_ | _, rest⟩
  · rw [hostTurn_done hs] at h; cases h; exact .inl rfl
  · rw [hostTurn_access hs] at h; exact .inr (.inl ⟨_, _, rfl, h⟩)
  · rw [hostTurn_wait hs] at h
    cases h
    split_ifs
    · exact .inr (.inr ⟨_, s.host, rfl⟩)
    · exact .inr (.inr ⟨_, rest, rfl⟩)

end Sys2Proof.Machine
end

