-- ==== Sys2Proof/Laws/Run.lean ====
section
/-!
SUPPORT. Runs of several steps, taken apart and put together (Host/Core.lean `Core.run`), first for any machine and then
for this one.
-/
namespace Sys2Proof.Machine

section anyMachine
variable {M : Host.Core} {x y : M.State}

theorem core_run_next (k : Nat) (h : M.step x = .next y) : Host.Core.run M (k + 1) x = Host.Core.run M k y := by
  rw [Host.Core.run, h]

theorem core_run_fault {f : M.Fault} (k : Nat) (h : M.step x = .fault f) :
    Host.Core.run M (k + 1) x = .fault f := by rw [Host.Core.run, h]

theorem core_run_refused {r : M.Refusal} (k : Nat) (h : M.step x = .refused r) :
    Host.Core.run M (k + 1) x = .refused r := by rw [Host.Core.run, h]

/-- Two runs in a row are one run. -/
theorem core_run_add (a b : Nat) (h : Host.Core.run M a x = .next y) :
    Host.Core.run M (a + b) x = Host.Core.run M b y := by
  induction a generalizing x with
  | zero => rw [Host.Core.run] at h; cases h; rw [Nat.zero_add]
  | succ a ih =>
    rw [Nat.add_right_comm]
    rcases hs : M.step x with u | f | r
    · rw [core_run_next _ hs] at h ⊢; exact ih h
    · rw [core_run_fault _ hs] at h; cases h
    · rw [core_run_refused _ hs] at h; cases h

end anyMachine

variable {s t : State}

theorem run_zero (s : State) : Host.Core.run Sys2Proof.core 0 s = .next s := rfl

theorem run_succ (k : Nat) (h : step s = .next t) :
    Host.Core.run Sys2Proof.core (k + 1) s = Host.Core.run Sys2Proof.core k t := core_run_next (M := Sys2Proof.core) k h

theorem run_fault {f : Fault} (k : Nat) (h : step s = .fault f) :
    Host.Core.run Sys2Proof.core (k + 1) s = .fault f := core_run_fault (M := Sys2Proof.core) k h

theorem run_refused {r : Refusal} (k : Nat) (h : step s = .refused r) :
    Host.Core.run Sys2Proof.core (k + 1) s = .refused r := core_run_refused (M := Sys2Proof.core) k h

theorem run_add (a b : Nat) (h : Host.Core.run Sys2Proof.core a s = .next t) :
    Host.Core.run Sys2Proof.core (a + b) s = Host.Core.run Sys2Proof.core b t :=
  core_run_add (M := Sys2Proof.core) a b h

/-- A step of an idle block with no schedule is the host's move. -/
theorem step_idle_host {a : HostAccess} {rest : List HostStmt} (hs : s.sched = []) (hp : s.pending = false)
    (hh : s.host = .access a :: rest) : step s = hostAccess a { s with host := rest } := by
  rw [step_of_host (.inr ⟨hs, hp, rfl⟩), hostTurn_access hh]

end Sys2Proof.Machine
end

