-- ==== Sys2Proof/Machine/AsmText.lean ====
section
/-!
DEFINITION. The text of host assembly (spec/30_encoding.md R77 to R79): register names (spec/10_state.md R22), command
mnemonics and statements as a program writes them. Numerals are decimal (DESIGN CHOICE, log 12).
-/
namespace Sys2Proof.Machine

/-- The registers of R22. -/
inductive CsrName where
  | cmd | status | magLen | bufCap | result | config0 | config1
deriving DecidableEq, Repr

/-- The byte offset of a register (R22). -/
def CsrName.offset : CsrName → BitVec 8
  | .cmd => 0x00
  | .status => 0x04
  | .magLen => 0x08
  | .bufCap => 0x0C
  | .result => 0x10
  | .config0 => 0x14
  | .config1 => 0x18

/-- The name of a register (R22). -/
def CsrName.text : CsrName → String
  | .cmd => "CMD"
  | .status => "STATUS"
  | .magLen => "MAG_LEN"
  | .bufCap => "BUF_CAP"
  | .result => "RESULT"
  | .config0 => "CONFIG0"
  | .config1 => "CONFIG1"

/-- The register at an offset, if one is there (R22, R35). -/
def csrAt (off : BitVec 8) : Option CsrName :=
  [CsrName.cmd, .status, .magLen, .bufCap, .result, .config0, .config1].find? fun r => r.offset == off

/-- `NAME` of R78: a register name, or a byte offset in the CSR space. -/
def csrText (off : BitVec 8) : String :=
  match csrAt off with
  | some r => r.text
  | none => toString off.toNat

/-- A command's mnemonic, lower case and without operands (R77). -/
def mnemonic : Instr → String
  | .marshal => "marshal"
  | .maxlen => "maxlen"
  | .trunc256 => "trunc256"

/-- The statement of an access (R78). -/
def HostAccess.text : HostAccess → String
  | .csrw off v => "csrw " ++ csrText off ++ ", " ++ toString v.toNat
  | .csrr off => "csrr " ++ csrText off
  | .magw i v => "magw " ++ toString i.toNat ++ ", " ++ toString v.toNat
  | .magr i => "magr " ++ toString i.toNat
  | .bufw j v => "bufw " ++ toString j.toNat ++ ", " ++ toString v.toNat
  | .bufr j => "bufr " ++ toString j.toNat

/-- A line of host assembly (R77, R79). -/
def AsmLine.text : AsmLine → String
  | .access a => a.text
  | .command i => mnemonic i
  | .rawCommand c => ".cmd " ++ toString c.toNat
  | .wait => "wait"
  | .setmag v => "setmag " ++ toString v
  | .run i => "run " ++ mnemonic i

end Sys2Proof.Machine
end

