-- ==== Sys2Proof/Tests/Slice0.lean ====
section
/-!
SUPPORT. The model's own tests: smoke tests of WellFormed, decoding of words written out from the spec, two small vectors
per command from spec/95_test_vectors.md, and for every statement with hypotheses a state that meets them.
-/
namespace Sys2Proof.Tests
open Sys2Proof Sys2Proof.Machine

/-! ### WellFormed -/

theorem test_width_24_is_no_configuration : WordBits.ofBits 24 = none := by decide
theorem test_width_64_is_a_configuration : WordBits.ofBits 64 = some .w64 := by decide
theorem test_reference_build_is_legal : Config.reference.legal = true := by decide
theorem test_no_words_is_illegal : ({ Config.reference with maxWords := 0 } : Config).legal = false := by decide
theorem test_65536_words_is_illegal : ({ Config.reference with maxWords := 65536 } : Config).legal = false := by decide
theorem test_long_product_is_illegal : ({ Config.reference with maxWords := 2 ^ 32 } : Config).legal = false := by decide
theorem test_no_buffer_is_illegal : ({ Config.reference with bufBytes := 0 } : Config).legal = false := by decide
theorem test_long_buffer_is_illegal : ({ Config.reference with bufBytes := 2 ^ 32 } : Config).legal = false := by decide
theorem test_wide_word_is_ill_formed :
    (HostAccess.magw 0 0x100).wellFormed { Config.reference with wordBits := .w8 } = false := by decide
theorem test_wide_word_in_line_is_ill_formed :
    (AsmLine.access (.magw 0 0x100)).wellFormed { Config.reference with wordBits := .w8 } = false := by decide
theorem test_unpresentable_setmag_is_ill_formed (e : Nat) (h : 524288 ≤ e) :
    (AsmLine.setmag (2 ^ e)).wellFormed { Config.reference with wordBits := .w8 } = false := by
  have hw : ({ Config.reference with wordBits := .w8 } : Config).W = 8 := rfl
  rw [AsmLine.wellFormed, Nat.log2_two_pow, hw, decide_eq_false_iff_not]
  omega
/-- No command has an operand (R73): no term of `Instr` is ill-formed. -/
theorem test_instr_wellFormed (i : Instr) : i.wellFormed = true := by cases i <;> rfl

/-! ### Decoding: words written out from R71 and R72; illegal words from spec/95_test_vectors.md section 3 -/

theorem test_decode_marshal : decode 0b00000000000000000000000000000001 = .command .marshal := by decide
theorem test_decode_maxlen : decode 0b00000000000000000000000000000010 = .command .maxlen := by decide
theorem test_decode_trunc256 : decode 0b00000000000000000000000000000011 = .command .trunc256 := by decide
theorem test_decode_illegal :
    [0x00000000, 0x00000004, 0x0000000F, 0x00000010, 0x00000011, 0x80000001, 0xFFFFFFFF].map decode =
      [.illegal (.reservedOp 0), .illegal (.reservedOp 4), .illegal (.reservedOp 0xF), .illegal (.reservedOp 0),
        .illegal (.reservedBits 1), .illegal (.reservedBits 0x8000000), .illegal (.reservedOp 0xF)] := by decide
theorem test_decodeTableWord : (decodeTableWord 32 1, decodeTableWord 32 2, decodeTableWord 32 3, decodeTableWord 32 4) =
    (some .marshal, some .maxlen, some .trunc256, none) := by decide

/-! ### Small states -/

/-- A build with word width `w`, MAX_WORDS = 64 and BUF_BYTES = 256 (spec/95_test_vectors.md). -/
def build (w : WordBits) : Config := { wordBits := w, maxWords := 64, bufBytes := 256 }

/-- A block that holds the words `ws`, least significant first, with MAG_LEN their number and BUF_CAP = `cap`. -/
def holding (w : WordBits) (ws : List Nat) (cap : Nat) : State :=
  { State.resetOf (build w) with
    magLen := BitVec.ofNat 32 ws.length
    bufCap := BitVec.ofNat 32 cap
    mem := { mag := ws.zipIdx.map fun p => (p.2, BitVec.ofNat 256 p.1), buf := [] } }

/-- The word contents that `holding` gives. -/
def contents (ws : List Nat) (i : Nat) : Word := BitVec.ofNat 256 (ws.getD i 0)

/-- The state an outcome goes on in. -/
def after : Result → Option State
  | .next t => some t
  | .fault _ => none
  | .refused _ => none

/-- What a test looks at: STATUS, RESULT, MAG_LEN and the written bytes of BUF. -/
def look (r : Result) : Option (Nat × Nat × Nat × List Nat) :=
  (after r).map fun t => (t.status.toNat, t.result.toNat, t.magLen.toNat, t.mem.buf.map fun p => p.2.toNat)

/-! ### Two vectors per command (spec/95_test_vectors.md sections 2 and 3) -/

/-- M10: zero bytes inside the value. -/
theorem test_marshal_M10 : look (exec .marshal (holding .w64 [0x00FF00000000FF00, 0x10000] 16)) =
    some (0x02, 11, 2, [0x01, 0, 0, 0, 0xFF, 0, 0, 0, 0, 0xFF, 0]) := by decide
/-- M12: the same value, one byte too small. -/
theorem test_marshal_M12 : look (exec .marshal (holding .w64 [0x00FF00000000FF00, 0x10000] 10)) =
    some (0x12, 0, 2, []) := by decide
/-- X4. -/
theorem test_maxlen_X4 : look (exec .maxlen (holding .w32 [0, 0, 1] 0)) = some (0x02, 12, 3, []) := by decide
/-- X9: non-canonical. -/
theorem test_maxlen_X9 : look (exec .maxlen (holding .w64 [3, 0] 0)) = some (0x26, 0, 2, []) := by decide
/-- T7. -/
theorem test_trunc256_T7 : look (exec .trunc256 (holding .w64 [0, 5, 0, 0, 1] 0)) = some (0x02, 0, 2, []) := by decide
/-- T13: K = 1. -/
theorem test_trunc256_T13 : look (exec .trunc256 (holding .w256 [0xAB, 2 ^ 44] 0)) = some (0x02, 0, 1, []) := by decide

/-! ### A step, the host port, the assembler -/

/-- The illegal words complete with STATUS = 0x46 and RESULT = 0 (spec/95_test_vectors.md section 3). -/
theorem test_step_illegal : look (step (State.reset.withFetchWord 32 0x10)) = some (0x46, 0, 0, []) := by decide
/-- "`run marshal` with no other write completes with ERR = 0 and RESULT = 0" (spec/95_test_vectors.md section 3). -/
theorem test_step_marshal_after_reset : look (step (State.reset.withFetchWord 32 1)) = some (0x02, 0, 0, []) := by decide
/-- "`csrr CONFIG0` returns ... 0x00400040" and "`csrr CONFIG1` returns 0x00000100" (spec/95_test_vectors.md section 3). -/
theorem test_config_registers : (csrRead 0x14 State.reset, csrRead 0x18 State.reset) = (0x00400040, 0x00000100) := by
  decide
/-- `setmag` of 2^64 at W = 64 is two words and their count (R79). -/
theorem test_setmag : AsmLine.expand (build .w64) (.setmag (2 ^ 64)) =
    [.access (.magw 0 0), .access (.magw 1 1), .access (.csrw 0x08 2)] := by decide
/-- The text of R78. -/
theorem test_text : (AsmLine.access (.csrw 0x0C 8)).text = "csrw BUF_CAP, 8" := by decide
/-- Registers read back at the offsets of R22. -/
theorem test_csrAt : csrAt 0x0C = some .bufCap ∧ csrAt 0x1C = none := by decide

/-! ### Witnesses: for every statement with hypotheses, values that meet them -/

/-- A pending MARSHAL, the core to move. -/
def ready : State := State.reset.withFetchWord 32 1

/-- A pending illegal word, the core to move. -/
def readyIllegal (c : Nat) : State := State.reset.withFetchWord 32 c

/-- The block of M3 and M4: value 256, capacity exactly L = 2. -/
def m256 : State := holding .w64 [0x100] 2

/-- The block of T4: value 2^256 + 0x1234. -/
def t4 : State := holding .w64 [0x1234, 0, 0, 0, 1] 64

/-- An idle block with the given host program. -/
def hostHas (l : List HostStmt) : State := { State.reset with host := l }

theorem m256_presents : PresentsMagnitude m256 (contents [0x100]) where
  in_bounds := by decide
  written := by decide
  width := by decide
  canonical := by decide

theorem t4_presents : PresentsMagnitude t4 (contents [0x1234, 0, 0, 0, 1]) where
  in_bounds := by decide
  written := by decide
  width := by decide
  canonical := by decide

theorem reset_presents_zero : PresentsMagnitude State.reset (contents []) where
  in_bounds := by decide
  written := by decide
  width := by decide
  canonical := by decide

theorem reset_inv : State.reset.Inv where
  legal := by decide
  wf := by decide
  fits := by decide
  busy_eq_pending := by decide
  busy_not_done := by decide
  reserved_zero := by decide
  err_le_four := by decide
  fault_of_err := by decide
  result_zero_of_err := by decide

theorem m256_inv : m256.Inv where
  legal := by decide
  wf := by decide
  fits := by decide
  busy_eq_pending := by decide
  busy_not_done := by decide
  reserved_zero := by decide
  err_le_four := by decide
  fault_of_err := by decide
  result_zero_of_err := by decide

theorem witness_core_to_move : CoreToMove ready { ready with sched := [] } ∧
    CoreToMove { ready with sched := [] } { ready with sched := [] } :=
  ⟨.inl ⟨[], rfl, rfl⟩, .inr ⟨rfl, rfl, rfl⟩⟩

theorem witness_host_to_move : HostToMove State.reset State.reset ∧
    HostToMove { State.reset with sched := [.host] } State.reset :=
  ⟨.inr ⟨rfl, rfl, rfl⟩, .inl ⟨[], rfl, rfl⟩⟩

theorem witness_StepRunsTheDecodedCommand : decode ready.cmdlat = .command .marshal ∧ ready.pending = true ∧
    CoreToMove ready { ready with sched := [] } := ⟨by decide, rfl, .inl ⟨[], rfl, rfl⟩⟩

theorem witness_StepIsTheMoversTurn : HostToMove State.reset State.reset ∧ CoreToMove ready { ready with sched := [] } ∧
    ({ State.reset with sched := [.reset] } : State).sched = .reset :: [] :=
  ⟨.inr ⟨rfl, rfl, rfl⟩, .inl ⟨[], rfl, rfl⟩, rfl⟩

theorem witness_CoreStepPerformsPendingCommand : State.reset.pending = false ∧ ready.pending = true ∧
    decode ready.cmdlat = .command .marshal ∧ decode (readyIllegal 0).cmdlat = .illegal (.reservedOp 0) ∧
    (after (coreTurn ready)).isSome = true := by decide

/-- The first and last reserved OP, the least reserved RSV, at their boundaries. -/
theorem witness_IllegalWordEndsInIllegalCommand : (readyIllegal 0).pending = true ∧
    (readyIllegal 0).cmdlat.extractLsb' 0 4 = 0#4 ∧ 4 ≤ ((readyIllegal 4).cmdlat.extractLsb' 0 4).toNat ∧
    4 ≤ ((readyIllegal 0xF).cmdlat.extractLsb' 0 4).toNat ∧ (readyIllegal 0x11).cmdlat.extractLsb' 4 28 ≠ 0#28 := by
  decide

theorem witness_HostTurnMakesTheNextAccess :
    (hostHas [.access (.csrr 0x04)]).host = .access (.csrr 0x04) :: [] := rfl

theorem witness_WaitPollsStatusUntilNotBusy : (hostHas [.wait]).host = .wait :: [] ∧
    ready.status.getLsbD 0 = true ∧ State.reset.status.getLsbD 0 = false := by decide

theorem witness_EndedRunStaysPut : State.reset.ended = true ∧ State.reset.sched = [] := by decide

theorem witness_StepStopsOnlyByTheTwoModelFaults :
    step { startCommand 1 (hostHas [.access (.magr 0)]) with sched := [.host] } = .fault .hostRace := rfl

theorem witness_StepKeepsTheBuild : step State.reset = .next State.reset := rfl

theorem witness_LeadingZeroBytesIsTheLargestCount : (0 : Word).toNat < 2 ^ (build .w64).W ∧
    (0x100 : Word).toNat < 2 ^ (build .w64).W ∧ lzb (build .w64) 0x100 = 6 := by decide

theorem witness_MinLenIsTheSmallestLength : 0 < 256 ∧ 1 < minLen 256 ∧ minLen 255 = 1 := by decide

/-- Each clause of MARSHAL's pseudocode, at a boundary. -/
theorem witness_MarshalFollowsItsPseudocode : m256.cfg.legal = true ∧
    m256.cfg.maxWords < ({ m256 with magLen := 65 } : State).magLen.toNat ∧
    m256.cfg.bufBytes < ({ m256 with bufCap := 257 } : State).bufCap.toNat ∧
    State.reset.magLen.toNat = 0 ∧
    magRead ({ State.reset with magLen := 64 } : State) 63 = none ∧
    magRead (holding .w64 [5, 0] 0) 1 = some 0 ∧
    (magRead m256 0 = some 0x100 ∧ 1 * m256.cfg.B - lzb m256.cfg 0x100 = m256.bufCap.toNat) ∧
    ({ m256 with bufCap := 1 } : State).bufCap.toNat < 1 * m256.cfg.B - lzb m256.cfg 0x100 ∧
    (magRead ({ State.reset with magLen := 2, bufCap := 9, mem := { mag := [(1, 1)], buf := [] } } : State) 0 = none ∧
      2 * State.reset.cfg.B - lzb State.reset.cfg 1 = 9) := by decide

/-- The minimal length fits exactly: capacity L. -/
theorem witness_MarshalWritesTheMinimalEncoding : m256.cfg.legal = true ∧ PresentsMagnitude m256 (contents [0x100]) ∧
    m256.bufCap.toNat ≤ m256.cfg.bufBytes ∧ minLen (valueOf m256 (contents [0x100])) ≤ m256.bufCap.toNat :=
  ⟨by decide, m256_presents, by decide, by decide⟩

theorem witness_MarshalLeavesTheRestAlone : m256.cfg.legal = true ∧ ∃ t, exec .marshal m256 = .next t :=
  ⟨by decide, _, rfl⟩

theorem witness_MarshalOfZeroWritesNothing : State.reset.magLen = 0 ∧
    State.reset.bufCap.toNat ≤ State.reset.cfg.bufBytes ∧
    ({ State.reset with bufCap := 256 } : State).bufCap.toNat = State.reset.cfg.bufBytes := by decide

/-- One byte too small, and exactly enough. -/
theorem witness_MarshalTooSmallExactlyWhenItDoesNotFit : m256.cfg.legal = true ∧
    PresentsMagnitude m256 (contents [0x100]) ∧ m256.bufCap.toNat ≤ m256.cfg.bufBytes ∧
    PresentsMagnitude { m256 with bufCap := 1 } (contents [0x100]) ∧
    ({ m256 with bufCap := 1 } : State).bufCap.toNat < minLen (valueOf m256 (contents [0x100])) :=
  ⟨by decide, m256_presents, by decide, ⟨m256_presents.1, m256_presents.2, m256_presents.3, m256_presents.4⟩, by decide⟩

theorem witness_MaxlenFollowsItsPseudocode : m256.cfg.legal = true ∧
    m256.cfg.maxWords < ({ m256 with magLen := 65 } : State).magLen.toNat ∧ m256.magLen.toNat ≤ m256.cfg.maxWords ∧
    magRead ({ State.reset with magLen := 64 } : State) 63 = none ∧ magRead (holding .w64 [3, 0] 0) 1 = some 0 ∧
    magRead m256 0 = some 0x100 ∧ State.reset.magLen.toNat = 0 := by decide

/-- A bound that BUF_BYTES allows, and one it does not. -/
theorem witness_MaxlenBoundsTheMinimalLength : m256.cfg.legal = true ∧ PresentsMagnitude m256 (contents [0x100]) ∧
    m256.magLen.toNat * m256.cfg.B ≤ m256.cfg.bufBytes ∧
    PresentsMagnitude { m256 with cfg := { m256.cfg with bufBytes := 7 } } (contents [0x100]) ∧
    7 < m256.magLen.toNat * m256.cfg.B :=
  ⟨by decide, m256_presents, by decide, ⟨m256_presents.1, m256_presents.2, m256_presents.3, m256_presents.4⟩, by decide⟩

theorem witness_MaxlenIsExactWhenTopByteIsNonzero : m256.cfg.legal = true ∧
    PresentsMagnitude m256 (contents [0x100]) ∧ PresentsMagnitude State.reset (contents []) :=
  ⟨by decide, m256_presents, reset_presents_zero⟩

theorem witness_MaxlenCornerCases : m256.cfg.legal = true ∧ State.reset.magLen.toNat = 0 ∧
    (({ State.reset with magLen := 64, mem := { mag := [(63, 1)], buf := [] } } : State).magLen.toNat =
        State.reset.cfg.maxWords ∧
      magRead ({ State.reset with magLen := 64, mem := { mag := [(63, 1)], buf := [] } } : State) 63 = some 1) ∧
    ({ State.reset with magLen := 65 } : State).magLen.toNat = State.reset.cfg.maxWords + 1 ∧
    magRead (holding .w64 [3, 0] 0) 1 = some 0 := by decide

theorem witness_SizingByMaxlenNeverTooSmall : m256.cfg.legal = true ∧ PresentsMagnitude m256 (contents [0x100]) ∧
    m256.magLen.toNat * m256.cfg.B ≤ m256.cfg.bufBytes := ⟨by decide, m256_presents, by decide⟩

/-- Each clause of TRUNC256's pseudocode: n = K and n = K + 1, an unwritten kept word, and every end of the loop. -/
theorem witness_TruncFollowsItsPseudocode :
    t4.cfg.maxWords < ({ t4 with magLen := 65 } : State).magLen.toNat ∧ t4.magLen.toNat ≤ t4.cfg.maxWords ∧
    magRead ({ State.reset with magLen := 64 } : State) 63 = none ∧ magRead (holding .w64 [1, 0] 0) 1 = some 0 ∧
    (magRead t4 4 = some 1 ∧ t4.magLen.toNat = t4.cfg.K + 1) ∧
    (holding .w64 [1, 2, 3, 4] 0).magLen.toNat = t4.cfg.K ∧
    (magRead t4 3 = some 0 ∧ magRead t4 2 = some 0 ∧ magRead t4 1 = some 0 ∧ magRead t4 0 = some 0x1234) ∧
    magRead (holding .w64 [1, 2, 3, 4, 5] 0) 3 = some 4 ∧
    magRead ({ State.reset with magLen := 5, mem := { mag := [(4, 1)], buf := [] } } : State) 3 = none := by decide

theorem witness_TruncLeavesTheValueModulo2Pow256 :
    (∀ i, (contents [0x1234, 0, 0, 0, 1] i).toNat < 2 ^ t4.cfg.W) ∧
    (∀ i w, magRead t4 i = some w → contents [0x1234, 0, 0, 0, 1] i = w) ∧
    ∃ t, exec .trunc256 t4 = .next t ∧ errField t.status = 0 := by
  refine ⟨fun i => ?_, fun i w h => ?_, _, rfl, by decide⟩
  · by_cases hi : i < 5
    · revert i; decide
    · rw [contents, List.getD_eq_default _ _ (by simpa using hi)]; decide
  · have hi : i < 5 := by
      by_contra hc
      have : magRead t4 i = none := by
        simp only [magRead, t4, holding, List.zipIdx, List.map, Store.read]
        rw [if_neg (by omega), if_neg (by omega), if_neg (by omega), if_neg (by omega), if_neg (by omega)]
      rw [this] at h; cases h
    have key : ∀ k, k < 5 → magRead t4 k = some (contents [0x1234, 0, 0, 0, 1] k) := by decide
    rw [key i hi] at h; exact Option.some.inj h

theorem witness_TruncResultIsCanonical : (∃ t, exec .trunc256 t4 = .next t ∧ errField t.status = 0) ∧
    t4.cfg.K < t4.magLen.toNat := ⟨⟨_, rfl, by decide⟩, by decide⟩

theorem witness_TruncIsIdempotent : ∃ t, exec .trunc256 t4 = .next t ∧ errField t.status = 0 := ⟨_, rfl, by decide⟩

/-- n = K: MAG_LEN is not written. -/
theorem witness_TruncWritesOnlyTheLength : (∃ t, exec .trunc256 t4 = .next t) ∧
    (holding .w64 [1, 2, 3, 4] 0).magLen.toNat ≤ (build .w64).K := ⟨⟨_, rfl⟩, by decide⟩

theorem witness_TruncSucceedsOnPresentedMagnitudes : PresentsMagnitude t4 (contents [0x1234, 0, 0, 0, 1]) ∧
    t4.cfg.maxWords < ({ t4 with magLen := 65 } : State).magLen.toNat ∧
    (0 < (holding .w64 [1, 0] 0).magLen.toNat ∧ magRead (holding .w64 [1, 0] 0) 1 = some 0) :=
  ⟨t4_presents, by decide, by decide⟩

theorem witness_CommandsEndInSuccessOrOneError : ready.pending = true ∧ (∃ t, coreTurn ready = .next t) ∧
    ∃ t, coreTurn (readyIllegal 0) = .next t := ⟨rfl, ⟨_, rfl⟩, ⟨_, rfl⟩⟩

theorem witness_OutOfRangeOperandsAreBadOperand :
    m256.cfg.maxWords < ({ m256 with magLen := 65 } : State).magLen.toNat ∧
    m256.cfg.bufBytes < ({ m256 with bufCap := 257 } : State).bufCap.toNat := by decide

theorem witness_ZeroTopWordIsNonCanonical : (holding .w64 [5, 0] 256).magLen.toNat ≤ (build .w64).maxWords ∧
    0 < (holding .w64 [5, 0] 256).magLen.toNat ∧ magRead (holding .w64 [5, 0] 256) 1 = some 0 ∧
    (holding .w64 [5, 0] 256).bufCap.toNat ≤ (build .w64).bufBytes := by decide

/-- M17 (BAD_OPERAND before NONCANONICAL), M18 (NONCANONICAL before BUFFER_TOO_SMALL), an unwritten top word, M5. -/
theorem witness_FirstErrorInPriorityOrderIsReported :
    ((readyIllegal 0).pending = true ∧ decode (readyIllegal 0).cmdlat = .illegal (.reservedOp 0)) ∧
    (build .w64).bufBytes < (holding .w64 [5, 0] 257).bufCap.toNat ∧
    magRead (holding .w64 [5, 0] 0) 1 = some 0 ∧ magRead ({ State.reset with magLen := 64 } : State) 63 = none ∧
    (holding .w64 [0x100] 1).bufCap.toNat < 1 * (build .w64).B - lzb (build .w64) 0x100 := by decide

theorem witness_FaultBitIsSticky : (∃ t, exec .maxlen (holding .w64 [3, 0] 0) = .next t ∧ faultBit t.status = true) ∧
    (∃ t, takeTurn .core { ready with status := 0x00000005 } = .next t) ∧
    (∃ t, takeTurn .host { State.reset with status := 0x00000004 } = .next t) ∧
    faultBit 0x00000005 = true ∧ faultBit 0x00000004 = true ∧
    (∃ t, takeTurn .reset ready = .next t) ∧
    ∃ t, (readyIllegal 0x10).pending = true ∧ decode (readyIllegal 0x10).cmdlat = .illegal (.reservedOp 0) ∧
      faultBit (readyIllegal 0x10).status = false ∧ coreTurn (readyIllegal 0x10) = .next t ∧
      errField t.status = 4 ∧ faultBit t.status = true :=
  ⟨⟨_, rfl, by decide⟩, ⟨_, rfl⟩, ⟨_, rfl⟩, by decide, by decide, ⟨_, rfl⟩,
    ⟨_, by decide, by decide, by decide, rfl, by decide, by decide⟩⟩

theorem witness_CommandsKeepTheirFrame : m256.cfg.legal = true ∧ (∃ t, exec .marshal m256 = .next t) ∧
    (∃ t, exec .maxlen m256 = .next t) ∧ ∃ t, exec .trunc256 m256 = .next t :=
  ⟨by decide, ⟨_, rfl⟩, ⟨_, rfl⟩, ⟨_, rfl⟩⟩

/-- Another word above the length; one command that goes on and one that faults. -/
theorem witness_WordsAboveTheLengthAreNotRead :
    (∀ k, k < m256.magLen.toNat → Store.read [(0, (0x100 : Word)), (1, 7)] k = magRead m256 k) ∧
    (∃ t, exec .marshal m256 = .next t) ∧
    exec .maxlen ({ State.reset with magLen := 1 } : State) = .fault .unwrittenRead := ⟨by decide, ⟨_, rfl⟩, rfl⟩

theorem witness_CommandsStopOnlyOnUnwrittenWords :
    exec .marshal ({ State.reset with magLen := 64 } : State) = .fault .unwrittenRead := rfl

theorem witness_CmdWriteStartsACommand : busyBit State.reset.status = false ∧ busyBit ready.status = true := by decide

/-- The first reserved offset, the last offset, and the first that is not a multiple of 4. -/
theorem witness_ReservedOffsetsReadZeroAndIgnoreWrites : 0x1C ≤ (0x1C : BitVec 8).toNat ∧ 0x1C ≤ (0xFF : BitVec 8).toNat ∧
    (0x01 : BitVec 8).toNat % 4 ≠ 0 ∧ busyBit State.reset.status = false := by decide

theorem witness_ConfigRegistersReportTheBuild : State.reset.cfg.legal = true ∧ busyBit State.reset.status = false := by
  decide

theorem witness_LengthAndCapacityStoreAllBits : busyBit State.reset.status = false := by decide

/-- The last implemented index and the widest word. -/
theorem witness_MagWriteThenReadReturnsTheWord : busyBit State.reset.status = false ∧
    (63 : BitVec 16).toNat < State.reset.cfg.maxWords ∧ (0xFFFFFFFFFFFFFFFF : Word).toNat < 2 ^ State.reset.cfg.W := by
  decide

theorem witness_BufWriteThenReadReturnsTheByte : busyBit State.reset.status = false ∧
    (255 : BitVec 32).toNat < State.reset.cfg.bufBytes := by decide

/-- The first unimplemented indices. -/
theorem witness_UnimplementedIndicesReadZeroAndIgnoreWrites : busyBit State.reset.status = false ∧
    State.reset.cfg.maxWords ≤ (64 : BitVec 16).toNat ∧ State.reset.cfg.bufBytes ≤ (256 : BitVec 32).toNat := by decide

/-- The offsets where the clauses meet: 0x18 and 0x1C permitted, 0x10 a race. -/
theorem witness_ListedAccessesOfABusyBlockAreRaces : busyBit ready.status = true ∧
    ((0x18 : BitVec 8) = 0x14 ∨ (0x18 : BitVec 8) = 0x18 ∨ 0x1C ≤ (0x18 : BitVec 8).toNat ∨
      (0x18 : BitVec 8).toNat % 4 ≠ 0) ∧
    0x1C ≤ (0x1C : BitVec 8).toNat ∧ (0x11 : BitVec 8).toNat % 4 ≠ 0 ∧
    ¬ ((0x10 : BitVec 8) = 0x14 ∨ (0x10 : BitVec 8) = 0x18 ∨ 0x1C ≤ (0x10 : BitVec 8).toNat ∨
      (0x10 : BitVec 8).toNat % 4 ≠ 0) := by decide

theorem witness_EveryOtherAccessOfABusyBlockIsARace : busyBit ready.status = true ∧
    (∃ t, hostAccess (.csrr 0x14) ready = .next t) ∧ hostAccess (.csrr 0x00) ready = .fault .hostRace ∧
    hostAccess (.csrw 0x04 0) ready = .fault .hostRace ∧ hostAccess (.magr 64) ready = .fault .hostRace :=
  ⟨rfl, ⟨_, rfl⟩, rfl, rfl, rfl⟩

theorem witness_IdleHostAccessFaultsExactlyOnUnwrittenReads : busyBit State.reset.status = false ∧
    hostAccess (.magr 63) State.reset = .fault .unwrittenRead ∧
    hostAccess (.bufr 255) State.reset = .fault .unwrittenRead := ⟨by decide, rfl, rfl⟩

theorem witness_HostReadsHaveNoSideEffect : (∃ t, hostAccess (.csrr 0x10) m256 = .next t) ∧
    (∃ t, hostAccess (.magr 0) m256 = .next t) ∧ ∃ t, hostAccess (.bufr 256) m256 = .next t :=
  ⟨⟨_, rfl⟩, ⟨_, rfl⟩, ⟨_, rfl⟩⟩

theorem witness_OnlyTheHostWritesMagnitudeWords :
    (∃ t, takeTurn .host (hostHas [.access (.magw 0 1)]) = .next t ∧
      magRead t 0 ≠ magRead (hostHas [.access (.magw 0 1)]) 0) ∧
    ∃ t, takeTurn .reset m256 = .next t ∧ magRead t 0 ≠ magRead m256 0 :=
  ⟨⟨_, rfl, by decide⟩, ⟨_, rfl, by decide⟩⟩

theorem witness_OnlyTheHostAndMarshalWriteBufferBytes :
    (∃ t, takeTurn .host (hostHas [.access (.bufw 0 1)]) = .next t ∧
      bufRead t 0 ≠ bufRead (hostHas [.access (.bufw 0 1)]) 0) ∧
    ∃ t, takeTurn .core (startCommand 1 m256) = .next t ∧ bufRead t 0 ≠ bufRead (startCommand 1 m256) 0 :=
  ⟨⟨_, rfl, by decide⟩, ⟨_, rfl, by decide⟩⟩

theorem witness_ResetMeetsTheInvariant : State.reset.Inv ∧ (build .w8).legal = true := ⟨reset_inv, by decide⟩

theorem witness_StepKeepsTheInvariant : m256.Inv ∧ step m256 = .next m256 := ⟨m256_inv, rfl⟩

theorem witness_EveryWaitEnds : (hostHas [.wait]).Inv ∧ (hostHas [.wait]).host = .wait :: [] :=
  ⟨⟨reset_inv.1, reset_inv.2, reset_inv.3, reset_inv.4, reset_inv.5, reset_inv.6, reset_inv.7, reset_inv.8, reset_inv.9⟩, rfl⟩

/-- Any host program on the reset block meets the invariant. -/
theorem hostHas_inv (l : List HostStmt) : (hostHas l).Inv :=
  ⟨reset_inv.1, reset_inv.2, reset_inv.3, reset_inv.4, reset_inv.5, reset_inv.6, reset_inv.7, reset_inv.8, reset_inv.9⟩

/-- One word holds 2^64 - 1 and not 2^64. -/
theorem witness_SetmagPresentsTheValue : (hostHas (AsmLine.expand (build .w64) (.setmag 256))).Inv ∧
    (hostHas (AsmLine.expand (build .w64) (.setmag 256))).pending = false ∧
    (hostHas (AsmLine.expand (build .w64) (.setmag 256))).sched = [] ∧
    wordCount (build .w64) 256 ≤ (build .w64).maxWords ∧ wordCount (build .w64) (2 ^ 64 - 1) = 1 ∧ wordCount (build .w64) (2 ^ 64) = 2 ∧
    (hostHas (AsmLine.expand (build .w64) (.setmag 256))).host = AsmLine.expand (build .w64) (.setmag 256) ++ [] :=
  ⟨hostHas_inv _, rfl, rfl, by decide, by decide, by decide, by simp [hostHas]⟩

/-- The host program that marshals 256 with capacity 2. -/
def marshal256 : List HostStmt :=
  assemble (build .w64) [.setmag 256, .access (.csrw 0x0C (BitVec.ofNat 32 2)), .run .marshal]

/-- Capacity exactly the minimal length. -/
theorem witness_HostProgramMarshalsAnyValue : (hostHas marshal256).Inv ∧ (hostHas marshal256).pending = false ∧
    (hostHas marshal256).sched = [] ∧ wordCount (hostHas marshal256).cfg 256 ≤ (hostHas marshal256).cfg.maxWords ∧
    minLen 256 ≤ 2 ∧ 2 ≤ (hostHas marshal256).cfg.bufBytes ∧
    (hostHas marshal256).host = assemble (hostHas marshal256).cfg
      [.setmag 256, .access (.csrw 0x0C (BitVec.ofNat 32 2)), .run .marshal] ++ [] :=
  ⟨hostHas_inv _, rfl, rfl, by decide, by decide, by decide, (List.append_nil _).symm⟩

end Sys2Proof.Tests
end

section
/-!
PROOF. The operands' notation (spec/00_scope.md R14, R15): what `lzb` counts, and what `minLen` and `be` say of a value.
-/
namespace Sys2Proof.Machine

/-! ### Leading zero bytes (R14) -/

/-- The counts up to `leadingZeroBytes k w` are those `z` for which the top `z` of the low `k` bytes are zero. -/
theorem le_leadingZeroBytes_iff (k : Nat) (w : Word) (z : Nat) (hz : z ≤ k) :
    z ≤ leadingZeroBytes k w ↔ ∀ b, k - z ≤ b → b < k → byte w b = 0 := by
  induction k generalizing z with
  | zero => exact iff_of_true (by omega) fun b _ hb => absurd hb (Nat.not_lt_zero b)
  | succ k ih =>
    obtain _ | z := z
    · exact iff_of_true (Nat.zero_le _) fun b hb hlt => absurd hlt (by omega)
    · rw [leadingZeroBytes, Nat.add_sub_add_right]
      by_cases htop : byte w k = 0
      · rw [if_pos htop, Nat.add_le_add_iff_right, ih z (by omega)]
        refine ⟨fun h b hb hlt => ?_, fun h b hb hlt => h b hb (by omega)⟩
        obtain hlt | rfl := Nat.lt_succ_iff_lt_or_eq.1 hlt
        · exact h b hb hlt
        · exact htop
      · rw [if_neg htop]
        exact iff_of_false (Nat.not_succ_le_zero z) fun h => htop (h k (Nat.sub_le _ _) (Nat.lt_succ_self k))

/-- R14's own form of the count: `z <= lzb(w)` exactly when the top `z` bytes of `w` are zero. -/
theorem le_lzb_iff (c : Config) (w : Word) (z : Nat) (hz : z ≤ c.B) :
    z ≤ lzb c w ↔ ∀ b, c.B - z ≤ b → b ≤ c.B - 1 → byte w b = 0 := by
  simp only [lzb, le_leadingZeroBytes_iff c.B w z hz, Nat.le_sub_one_iff_lt (Config.B_pos c)]

theorem byte_zero (b : Nat) : byte 0 b = 0 := (byte_eq_zero_iff 0 b).2 (by simp)

theorem lzb_zero (c : Config) : lzb c 0 = c.B :=
  le_antisymm (lzb_le c 0) ((le_lzb_iff c 0 c.B le_rfl).2 fun b _ _ => byte_zero b)

/-- `lzb(w) < B` for a nonzero W-bit word. -/
theorem lzb_lt (c : Config) (w : Word) (hw : w ≠ 0) (hlt : w.toNat < 2 ^ c.W) : lzb c w < c.B :=
  leadingZeroBytes_lt c.B w hw (Config.W_eq c ▸ hlt)

/-- Settles O15: both directions of `le_lzb_iff`, at `lzb(w)` itself and at any other count. -/
theorem leadingZeroBytesIsTheLargestCount : Obligations.LeadingZeroBytesIsTheLargestCount := by
  intro c w hlt
  refine ⟨lzb_le c w, ?zeroBytes, ?maximal, ?ofZero, ?ofNonzero⟩
  case zeroBytes => exact (le_lzb_iff c w _ (lzb_le c w)).1 le_rfl
  case maximal => exact fun z hz => (le_lzb_iff c w z hz).2
  case ofZero => rintro rfl; exact lzb_zero c
  case ofNonzero => exact fun hw => Nat.le_sub_one_of_lt (lzb_lt c w hw hlt)

/-! ### Minimal length (R15) -/

@[simp] theorem minLen_zero : minLen 0 = 0 := rfl

/-- The minimal length is long enough for its value. -/
theorem lt_two_pow_minLen (v : Nat) : v < 2 ^ (8 * minLen v) := (minLen_le_iff v _).1 le_rfl

theorem be_toNat (v j : Nat) : (be v j).toNat = v / 2 ^ (8 * (minLen v - 1 - j)) % 256 := BitVec.toNat_ofNat _ 8

/-- Settles O16: `minLen_le_iff` says that the lengths from `minLen(v)` on are those that hold `v`. -/
theorem minLenIsTheSmallestLength : Obligations.MinLenIsTheSmallestLength := fun v =>
  ⟨minLen_zero, fun _ => ⟨lt_two_pow_minLen v, fun l => (minLen_le_iff v l).2⟩, fun j _ => be_toNat v j⟩

end Sys2Proof.Machine
end

section
/-!
PROOF. The host port's CSR space (spec/20_memory.md R51): what an access of an idle and of a busy block does, and the CMD
register (spec/10_state.md R23).
-/
namespace Sys2Proof.Machine

variable (s : State)

/-! ### CSR accesses (R51, R197) -/

theorem hostAccess_csrw_idle (off : BitVec 8) (v : Word32) (h : busyBit s.status = false) :
    hostAccess (.csrw off v) s = .next (csrWrite off v s) := hostAccess_idle (.csrw off v) h

theorem hostAccess_csrr_idle (off : BitVec 8) (h : busyBit s.status = false) :
    hostAccess (.csrr off) s = .next (reply (.csr off (csrRead off s)) s) := hostAccess_idle (.csrr off) h

theorem hostAccess_csrw_busy (off : BitVec 8) (v : Word32) (h : busyBit s.status = true) :
    hostAccess (.csrw off v) s = .fault .hostRace := hostAccess_race h rfl

/-! ### CMD (R23) -/

@[simp] theorem csrWrite_cmd (c : Word32) : csrWrite 0x00 c s = startCommand c s := rfl

@[simp] theorem csrRead_cmd : csrRead 0x00 s = 0x00000000 := rfl

/-- Settles O41: an idle block answers the CMD write with `startCommand`, whose status word is `startedStatus`. -/
theorem cmdWriteStartsACommand : Obligations.CmdWriteStartsACommand := by
  intro s c
  refine ⟨fun hidle => ⟨⟨startCommand c s, ?write, rfl, rfl, ?busy, ?done, ?fault, ?err, ?reserved, ?frame⟩, ?read⟩,
    fun hbusy => hostAccess_csrw_busy s 0x00 c hbusy, assertReset_cmdlat s⟩
  case write => rw [hostAccess_csrw_idle s 0x00 c hidle, csrWrite_cmd]
  case busy => exact busyBit_started s.status
  case done => exact doneBit_started s.status
  case fault => exact faultBit_started s.status
  case err => exact errField_started s.status
  case reserved => exact reservedBits_started s.status
  case frame => rfl
  case read => rw [hostAccess_csrr_idle s 0x00 hidle, csrRead_cmd, reply]

end Sys2Proof.Machine
end

section
/-!
PROOF. Command words (spec/30_encoding.md R71 to R74): which words the decoder gives to a command, what their fields are,
and how the core performs a word whose fields are no command's.
-/
namespace Sys2Proof

variable {c : Word32} {i : Instr}

/-! ### The decoder inverts the encoder (R71, R72) -/

@[simp] theorem decode_encode (i : Instr) : decode (encode i) = .command i := by cases i <;> rfl

theorem eq_encode_of_decode (h : decode c = .command i) : c = encode i := by
  unfold decode at h
  split at h
  case isTrue hc => cases h; exact hc
  split at h
  case isTrue hc => cases h; exact hc
  split at h
  case isTrue hc => cases h; exact hc
  case isFalse => cases h

theorem decode_eq_command_iff : decode c = .command i ↔ c = encode i :=
  ⟨eq_encode_of_decode, fun h => h ▸ decode_encode i⟩

/-- Settles O1: `decode_eq_command_iff` for each command, whose word the encoder computes. -/
theorem decodeSelectsExactlyTheTableWords : Obligations.DecodeSelectsExactlyTheTableWords := fun _ =>
  ⟨decode_eq_command_iff (i := .marshal), decode_eq_command_iff (i := .maxlen), decode_eq_command_iff (i := .trunc256)⟩

/-! ### The fields of a command's word (R71, R74) -/

theorem encode_fields : (i : Instr) → Laws.EncodeFields.Statement i
  | .marshal => Laws.EncodeFields.marshal
  | .maxlen => Laws.EncodeFields.maxlen
  | .trunc256 => Laws.EncodeFields.trunc256

/-- OP of a command is none of the reserved values 0x0 and 0x4 to 0xF. -/
theorem opcode_not_reserved (i : Instr) : opcode i ≠ 0 ∧ (opcode i).toNat < 4 := by cases i <;> decide

theorem fields_of_decode_command (h : decode c = .command i) : opField c = opcode i ∧ rsvField c = 0 := by
  obtain ⟨hrsv, hop, -⟩ := encode_fields i
  rw [eq_encode_of_decode h]
  exact ⟨hop, hrsv⟩

/-- A word with a reserved OP or a non-zero RSV is illegal: a command's word has neither. -/
theorem decode_illegal_of_fields (h : opField c = 0 ∨ 4 ≤ (opField c).toNat ∨ rsvField c ≠ 0) :
    ∃ why, decode c = .illegal why := by
  rcases hd : decode c with i | why
  case illegal => exact ⟨why, rfl⟩
  case command =>
    obtain ⟨hop, hrsv⟩ := fields_of_decode_command hd
    obtain ⟨hne, hlt⟩ := opcode_not_reserved i
    rw [← hop] at hne hlt
    rcases h with h | h | h
    · exact absurd h hne
    · exact absurd hlt (Nat.not_lt.2 h)
    · exact absurd hrsv h

/-- Settles O9: the word decodes to no command, so the core raises ILLEGAL_COMMAND, whatever the operands are. -/
theorem illegalWordEndsInIllegalCommand : Obligations.IllegalWordEndsInIllegalCommand := by
  intro s hpending hfields
  obtain ⟨why, hd⟩ := decode_illegal_of_fields (c := s.cmdlat) hfields
  exact ⟨_, Machine.coreTurn_illegal hpending hd, Machine.endsInError_raise .illegalCommand s⟩

end Sys2Proof
end

section
/-!
PROOF. MARSHAL (spec/40_byte_marshaller.md R102 to R109): what it answers in each case of its pseudocode, what a success
leaves in BUF and RESULT, and that the bytes it emits are the minimal big-endian encoding of the value.
-/
namespace Sys2Proof.Machine

variable {s : State} {m : Nat → Word}

/-! ### The length and the bytes of an encoding (R13, R15, R106) -/

@[simp] theorem encodedLength_zero (c : Config) (w : Word) : encodedLength c 0 w = 0 := by
  rw [encodedLength, Nat.zero_mul, Nat.zero_sub]

/-- The encoding of a presented magnitude is as long as the value needs (R106). -/
theorem minLen_valueOf (h : PresentsMagnitude s m) :
    minLen (valueOf s m) = encodedLength s.cfg s.magLen.toNat (m (s.magLen.toNat - 1)) := by
  rcases Nat.eq_zero_or_pos s.magLen.toNat with hn | hn
  · rw [valueOf, hn, encodedLength_zero]; rfl
  · exact minLen_val s.cfg m _ hn h.width (h.canonical hn)

theorem minLen_valueOf_le (h : PresentsMagnitude s m) : minLen (valueOf s m) ≤ s.magLen.toNat * s.cfg.B := by
  rw [minLen_valueOf h]; exact Nat.sub_le _ _

/-- Only the magnitude without words is encoded as no byte: the top word has a byte that is not 0. -/
theorem minLen_valueOf_eq_zero_iff (h : PresentsMagnitude s m) :
    minLen (valueOf s m) = 0 ↔ s.magLen.toNat = 0 := by
  rw [minLen_valueOf h]
  refine ⟨fun h0 => Nat.eq_zero_of_not_pos fun hn => ?_, fun hn => by rw [hn, encodedLength_zero]⟩
  have hlzb := lzb_lt s.cfg _ (h.canonical hn) (h.width _ (Nat.sub_lt hn Nat.one_pos))
  have hB : s.cfg.B ≤ s.magLen.toNat * s.cfg.B := Nat.le_mul_of_pos_left _ hn
  rw [encodedLength] at h0
  omega

/-- The byte that MARSHAL emits at `j` is byte `j` of the value's encoding. -/
theorem byte_eq_be (h : PresentsMagnitude s m) (j : Nat) (hj : j < minLen (valueOf s m)) :
    byte (m ((minLen (valueOf s m) - 1 - j) / s.cfg.B)) ((minLen (valueOf s m) - 1 - j) % s.cfg.B) =
      be (valueOf s m) j := by
  have hle := minLen_valueOf_le h
  apply BitVec.eq_of_toNat_eq
  rw [be_toNat]
  exact (val_byte s.cfg m _ _ (by omega) h.width).symm

/-- The first byte of a minimal encoding is not 0: a shorter one would do otherwise. -/
theorem be_zero_ne_zero (v : Nat) (h : 0 < minLen v) : be v 0 ≠ 0 := by
  intro h0
  have hbyte : v / 2 ^ (8 * (minLen v - 1)) % 256 = 0 := (be_toNat v 0).symm.trans (congrArg BitVec.toNat h0)
  have hsplit := mod_succ_bytes v (minLen v - 1)
  rw [Nat.sub_add_cancel h, hbyte, Nat.mul_zero, Nat.add_zero, Nat.mod_eq_of_lt (lt_two_pow_minLen v)] at hsplit
  have hshort := (minLen_le_iff v _).2 (hsplit.trans_lt (Nat.mod_lt v (by positivity)))
  omega

/-! ### A success that writes BUF (R107, R108) -/

/-- The state after a MARSHAL that emits the bytes `bs`. -/
def emitted (bs : List Byte) (s : State) : State :=
  complete (setResult (BitVec.ofNat 32 bs.length) (bufWriteAll bs s))

theorem endsInSuccess_emitted (bs : List Byte) (s : State) : EndsInSuccess s (emitted bs s) :=
  endsInSuccess_complete rfl

theorem emitted_result_toNat (bs : List Byte) (s : State) (h : bs.length < 2 ^ 32) :
    (emitted bs s).result.toNat = bs.length := by
  rw [emitted, complete_result, setResult_result, BitVec.toNat_ofNat, Nat.mod_eq_of_lt h]

theorem bufRead_emitted_inside (bs : List Byte) (s : State) (j : Nat) (h : j < bs.length) :
    bufRead (emitted bs s) j = bs[j]? :=
  (bufRead_bufWriteAll_inside s bs j h).trans (List.getElem?_eq_getElem h).symm

theorem bufRead_emitted_outside (bs : List Byte) (s : State) (j : Nat) (h : bs.length ≤ j) :
    bufRead (emitted bs s) j = bufRead s j := bufRead_bufWriteAll_outside s bs j h

theorem emitted_frame (bs : List Byte) (s : State) :
    emitted bs s = { s with mem := { s.mem with buf := (emitted bs s).mem.buf }, result := (emitted bs s).result,
                            status := (emitted bs s).status, pending := (emitted bs s).pending } := rfl

/-! ### What MARSHAL answers (R102) -/

theorem exec_marshal (s : State) : exec .marshal s = execMarshal s := rfl

theorem exec_marshal_tooSmall {w : Word} (hlen : s.magLen.toNat ≤ s.cfg.maxWords)
    (hcap : s.bufCap.toNat ≤ s.cfg.bufBytes) (hn : 0 < s.magLen.toNat)
    (hr : magRead s (s.magLen.toNat - 1) = some w) (hw : w ≠ 0)
    (hlt : s.bufCap.toNat < encodedLength s.cfg s.magLen.toNat w) :
    exec .marshal s = .next (raise .bufferTooSmall s) := by
  rw [exec_marshal, execMarshal_word hlen hcap hn hr hw, marshalWords_tooSmall hlt]

theorem exec_marshal_unwritten {w : Word} (hlen : s.magLen.toNat ≤ s.cfg.maxWords)
    (hcap : s.bufCap.toNat ≤ s.cfg.bufBytes) (hn : 0 < s.magLen.toNat)
    (hr : magRead s (s.magLen.toNat - 1) = some w) (hw : w ≠ 0)
    (hfit : encodedLength s.cfg s.magLen.toNat w ≤ s.bufCap.toNat)
    (hu : ∃ i, i < s.magLen.toNat ∧ magRead s i = none) : exec .marshal s = .fault .unwrittenRead := by
  obtain ⟨i, hi, hnone⟩ := hu
  have htop : i ≠ s.magLen.toNat - 1 := by
    rintro rfl; rw [hr] at hnone; cases hnone
  rw [exec_marshal, execMarshal_word hlen hcap hn hr hw,
    marshalWords_unwritten hfit ((wordsBelow_eq_none_iff s _).2 ⟨i, by omega, hnone⟩)]

/-- MARSHAL of a written canonical magnitude that fits emits `L` bytes: with `p = L-1-j`, byte `j` of them is byte
`p % B` of word `p / B`. The zero magnitude is the case of no bytes. -/
theorem exec_marshal_fits (hlen : s.magLen.toNat ≤ s.cfg.maxWords) (hcap : s.bufCap.toNat ≤ s.cfg.bufBytes)
    (hm : ∀ i, i < s.magLen.toNat → magRead s i = some (m i))
    (hc : 0 < s.magLen.toNat → m (s.magLen.toNat - 1) ≠ 0) {L : Nat}
    (hL : encodedLength s.cfg s.magLen.toNat (m (s.magLen.toNat - 1)) = L) (hfit : L ≤ s.bufCap.toNat) :
    ∃ bs : List Byte, exec .marshal s = .next (emitted bs s) ∧ bs.length = L ∧
      ∀ j, j < L → bs[j]? = some (byte (m ((L - 1 - j) / s.cfg.B)) ((L - 1 - j) % s.cfg.B)) := by
  subst hL
  rcases Nat.eq_zero_or_pos s.magLen.toNat with hn | hn
  · refine ⟨[], ?_, by rw [hn, encodedLength_zero, List.length_nil], fun j hj => ?_⟩
    · rw [exec_marshal, execMarshal_zero hcap hn]; rfl
    · rw [hn, encodedLength_zero] at hj; exact absurd hj (Nat.not_lt_zero j)
  · have hbelow := wordsBelow_of_written m (s.magLen.toNat - 1) fun i hi => hm i (by omega)
    have hbytes := length_encodedBytes s.cfg _ hn (m (s.magLen.toNat - 1)) _ (length_of_wordsBelow hbelow)
    refine ⟨_, ?_, hbytes, getElem?_encodedBytes s.cfg m _ hn⟩
    rw [exec_marshal, execMarshal_word hlen hcap hn (hm _ (by omega)) (hc hn), marshalWords_done hfit hbelow,
      emitted, hbytes]

/-! ### The statements -/

/-- Settles O17: one lemma on what MARSHAL answers for each case of R102. -/
theorem marshalFollowsItsPseudocode : Obligations.MarshalFollowsItsPseudocode := by
  intro s hlegal n cap
  refine ⟨fun h => ⟨_, execMarshal_badLength h, endsInError_raise _ s⟩,
    fun h => ⟨_, execMarshal_badCapacity h, endsInError_raise _ s⟩,
    fun hlen hcap => ⟨?empty, execMarshal_unwritten hlen hcap, ?topZero, fun w hn hr hw => ⟨?tooSmall, ?fits⟩⟩⟩
  case empty => exact fun hn => ⟨_, execMarshal_zero hcap hn, endsInSuccess_complete rfl, rfl, rfl⟩
  case topZero => exact fun hn hr => ⟨_, execMarshal_nonCanonical hlen hcap hn hr, endsInError_raise _ s⟩
  case tooSmall => exact fun hlt => ⟨_, exec_marshal_tooSmall hlen hcap hn hr hw hlt, endsInError_raise _ s⟩
  case fits =>
    refine fun hfit => ⟨exec_marshal_unwritten hlen hcap hn hr hw hfit, fun m hm => ?_⟩
    have htop : m (n - 1) = w := Option.some.inj ((hm _ (by omega)).symm.trans hr)
    obtain ⟨bs, hexec, hbs, hbyte⟩ :=
      exec_marshal_fits hlen hcap hm (fun _ => htop ▸ hw) (congrArg (encodedLength s.cfg n) htop) hfit
    have hlt : bs.length < 2 ^ 32 :=
      hbs ▸ (Nat.sub_le _ _).trans_lt (Config.mul_B_lt s.cfg hlegal n hlen)
    have hresult := emitted_result_toNat bs s hlt
    refine ⟨_, hexec, endsInSuccess_emitted bs s, hresult.trans hbs, fun j hj => ?_, fun j hj => ?_, emitted_frame bs s⟩
    · rw [hresult] at hj ⊢
      rw [bufRead_emitted_inside bs s j hj, hbs]
      exact hbyte j (hbs ▸ hj)
    · exact bufRead_emitted_outside bs s j (hresult ▸ hj)

/-- Settles O18: `L` is the value's minimal length, and the bytes that R102 emits are the value's own (`byte_eq_be`). -/
theorem marshalWritesTheMinimalEncoding : Obligations.MarshalWritesTheMinimalEncoding := by
  intro s m hlegal hp hcap hfit
  obtain ⟨bs, hexec, hbs, hbyte⟩ :=
    exec_marshal_fits hp.in_bounds hcap hp.written hp.canonical (minLen_valueOf hp).symm hfit
  have hle := minLen_valueOf_le hp
  have hlt := Config.mul_B_lt s.cfg hlegal _ hp.in_bounds
  have hread : ∀ j, j < minLen (valueOf s m) → bufRead (emitted bs s) j = some (be (valueOf s m) j) := fun j hj => by
    rw [bufRead_emitted_inside bs s j (hbs ▸ hj), hbyte j hj, byte_eq_be hp j hj]
  exact ⟨_, hexec, endsInSuccess_emitted bs s, (emitted_result_toNat bs s (by omega)).trans hbs, hread,
    fun hpos => ⟨_, hread 0 hpos, be_zero_ne_zero _ hpos⟩, minLen_valueOf_eq_zero_iff hp, hle,
    Nat.mul_le_mul_right _ hp.in_bounds, Config.mul_B_lt s.cfg hlegal _ le_rfl⟩

/-- Settles O19: MARSHAL's next state is an error completion or `emitted`, and each has this frame. -/
theorem marshalLeavesTheRestAlone : Obligations.MarshalLeavesTheRestAlone := by
  intro s t hlegal h
  rcases execMarshal_next h with ⟨e, rfl⟩ | ⟨bs, rfl, hlen, -, -, hbytes⟩
  · exact ⟨rfl, rfl, rfl, rfl, rfl, fun _ _ => rfl, rfl⟩
  · have hresult := emitted_result_toNat bs s (hbytes.trans_lt (Config.mul_B_lt s.cfg hlegal _ hlen))
    exact ⟨rfl, rfl, rfl, rfl, rfl, fun j hj => bufRead_emitted_outside bs s j (hresult ▸ hj), emitted_frame bs s⟩

/-- Settles O21: a capacity below the minimal length is raised before any write, and any other is a success (O18). -/
theorem marshalTooSmallExactlyWhenItDoesNotFit : Obligations.MarshalTooSmallExactlyWhenItDoesNotFit := by
  intro s m hlegal hp hcap
  rcases Nat.lt_or_ge s.bufCap.toNat (minLen (valueOf s m)) with hlt | hfit
  · have hn : 0 < s.magLen.toNat := by
      have := minLen_valueOf_eq_zero_iff hp
      omega
    have hexec := exec_marshal_tooSmall hp.in_bounds hcap hn (hp.written _ (by omega)) (hp.canonical hn)
      (minLen_valueOf hp ▸ hlt)
    have hend := endsInError_raise .bufferTooSmall s
    exact ⟨_, hexec, iff_of_true hend.err hlt, fun _ => hend⟩
  · obtain ⟨t, hexec, hend, -⟩ := marshalWritesTheMinimalEncoding s m hlegal hp hcap hfit
    have hne : errField t.status ≠ ErrCode.bufferTooSmall.code := hend.err ▸ (code_ne_zero _).symm
    exact ⟨t, hexec, iff_of_false hne (Nat.not_lt.2 hfit), fun hlt => absurd hlt (Nat.not_lt.2 hfit)⟩

/-- Settles O20: with `n = 0` MARSHAL completes before it reads a word. -/
theorem marshalOfZeroWritesNothing : Obligations.MarshalOfZeroWritesNothing := by
  intro s h0 hcap
  have hn : s.magLen.toNat = 0 := by rw [h0]; rfl
  exact ⟨_, execMarshal_zero hcap hn, endsInSuccess_complete rfl, rfl, rfl⟩

end Sys2Proof.Machine
end

section
/-!
PROOF. MAXLEN (spec/41_max_length_estimator.md R131 to R134): what it answers in each case of its pseudocode, and how
far its bound lies above the minimal length of the value.
-/
namespace Sys2Proof.Machine

variable {s : State} {m : Nat → Word}

/-! ### A success of MAXLEN (R131) -/

theorem endsInSuccess_completeMaxlen (s : State) : EndsInSuccess s (completeMaxlen s) := endsInSuccess_complete rfl

/-- In a legal build the bound fits RESULT. -/
theorem completeMaxlen_result_toNat (hlegal : s.cfg.legal = true) (hlen : s.magLen.toNat ≤ s.cfg.maxWords) :
    (completeMaxlen s).result.toNat = s.magLen.toNat * s.cfg.B := by
  rw [completeMaxlen, complete_result, setResult_result, BitVec.toNat_ofNat,
    Nat.mod_eq_of_lt (Config.mul_B_lt s.cfg hlegal _ hlen)]

theorem completeMaxlen_frame (s : State) :
    completeMaxlen s = { s with result := (completeMaxlen s).result, status := (completeMaxlen s).status,
                                pending := (completeMaxlen s).pending } := rfl

/-- Settles O22: one lemma on what MAXLEN answers for each case of R131. -/
theorem maxlenFollowsItsPseudocode : Obligations.MaxlenFollowsItsPseudocode := by
  intro s hlegal n
  refine ⟨?badLength, fun hlen => ⟨execMaxlen_unwritten hlen, ?topZero, ?canonical⟩⟩
  case badLength => exact fun h => ⟨_, execMaxlen_badLength h, endsInError_raise _ s⟩
  case topZero => exact fun hn hr => ⟨_, execMaxlen_nonCanonical hlen hn hr, endsInError_raise _ s⟩
  case canonical =>
    exact fun h => ⟨_, execMaxlen_canonical hlen h, endsInSuccess_completeMaxlen s,
      completeMaxlen_result_toNat hlegal hlen, completeMaxlen_frame s⟩

/-- Settles O25: each corner of R134 falls under one case of R131 (O22). -/
theorem maxlenCornerCases : Obligations.MaxlenCornerCases := by
  intro s hlegal
  obtain ⟨hbad, hin⟩ := maxlenFollowsItsPseudocode s hlegal
  refine ⟨?zero, ?maxWords, ?tooLong, ?topZero⟩
  case zero =>
    intro hn
    obtain ⟨-, -, hok⟩ := hin (by omega)
    obtain ⟨t, hexec, hend, hresult, -⟩ := hok (.inl hn)
    rw [hn, Nat.zero_mul] at hresult
    exact ⟨t, hexec, hend, BitVec.eq_of_toNat_eq hresult⟩
  case maxWords =>
    intro hn hw
    obtain ⟨-, -, hok⟩ := hin hn.le
    rw [← hn] at hw ⊢
    obtain ⟨t, hexec, hend, hresult, -⟩ := hok (.inr hw)
    exact ⟨t, hexec, hend, hresult⟩
  case tooLong =>
    intro hn
    obtain ⟨t, hexec, hend⟩ := hbad (by omega)
    exact ⟨t, hexec, hend, hend.result⟩
  case topZero =>
    intro hn hlen hr
    obtain ⟨-, hzero, -⟩ := hin hlen
    obtain ⟨t, hexec, hend⟩ := hzero hn hr
    exact ⟨t, hexec, hend, hend.result⟩

/-! ### The bound and the minimal length (R132, R133) -/

/-- The bound is above the minimal length by the leading zero bytes of the top word. -/
theorem minLen_valueOf_add_lzb (h : PresentsMagnitude s m) (hn : 0 < s.magLen.toNat) :
    minLen (valueOf s m) + lzb s.cfg (m (s.magLen.toNat - 1)) = s.magLen.toNat * s.cfg.B := by
  have hle : lzb s.cfg (m (s.magLen.toNat - 1)) ≤ s.magLen.toNat * s.cfg.B :=
    (lzb_le s.cfg _).trans (Nat.le_mul_of_pos_left _ hn)
  rw [minLen_valueOf h, encodedLength, Nat.sub_add_cancel hle]

theorem bound_sub_minLen_le (h : PresentsMagnitude s m) :
    s.magLen.toNat * s.cfg.B - minLen (valueOf s m) ≤ s.cfg.B - 1 := by
  rcases Nat.eq_zero_or_pos s.magLen.toNat with hn | hn
  · rw [hn, Nat.zero_mul, Nat.zero_sub]; exact Nat.zero_le _
  · have hadd := minLen_valueOf_add_lzb h hn
    have hlzb := lzb_lt s.cfg _ (h.canonical hn) (h.width _ (Nat.sub_lt hn Nat.one_pos))
    omega

/-- BUF_CAP is no part of what a presented magnitude is. -/
theorem PresentsMagnitude.withCapacity (h : PresentsMagnitude s m) (cap : Word32) :
    PresentsMagnitude { s with bufCap := cap } m := ⟨h.in_bounds, h.written, h.width, h.canonical⟩

/-- Settles O23: the bound exceeds the minimal length by less than a word, and a MARSHAL with it as capacity is a
success by O18, or has a capacity out of range. -/
theorem maxlenBoundsTheMinimalLength : Obligations.MaxlenBoundsTheMinimalLength := by
  intro s m hlegal hp b
  have hle : minLen (valueOf s m) ≤ b := minLen_valueOf_le hp
  have hcap : (BitVec.ofNat 32 b).toNat = b :=
    (BitVec.toNat_ofNat _ _).trans (Nat.mod_eq_of_lt (Config.mul_B_lt s.cfg hlegal _ hp.in_bounds))
  refine ⟨hle, bound_sub_minLen_le hp, fun hfit => ?fits, fun hgt => ?tooLarge⟩
  case fits =>
    obtain ⟨t, hexec, hend, -⟩ := marshalWritesTheMinimalEncoding { s with bufCap := BitVec.ofNat 32 b } m hlegal
      (hp.withCapacity _) (hcap.trans_le hfit) (hle.trans_eq hcap.symm)
    exact ⟨t, hexec, hend.err⟩
  case tooLarge =>
    exact ⟨_, execMarshal_badCapacity (hgt.trans_eq hcap.symm), (endsInError_raise .badOperand _).err⟩

/-- Settles O24: the bound is met exactly when the top word, if there is one, has no leading zero byte. -/
theorem maxlenIsExactWhenTopByteIsNonzero : Obligations.MaxlenIsExactWhenTopByteIsNonzero := by
  intro s m _ hp
  rcases Nat.eq_zero_or_pos s.magLen.toNat with hn | hn
  · refine iff_of_true ?_ (.inl hn)
    rw [hn, Nat.zero_mul]
    exact (minLen_valueOf_eq_zero_iff hp).2 hn
  · have hadd := minLen_valueOf_add_lzb hp hn
    have htop : lzb s.cfg (m (s.magLen.toNat - 1)) = 0 ↔ byte (m (s.magLen.toNat - 1)) (s.cfg.B - 1) ≠ 0 :=
      leadingZeroBytes_eq_zero_iff s.cfg.B (Config.B_pos s.cfg) _
    rw [or_iff_right hn.ne', and_iff_right hn, ← htop]
    omega

end Sys2Proof.Machine
end

section
/-!
PROOF. TRUNC256 (spec/42_width_truncator.md R141 to R147): what it answers in each case of its pseudocode, which length a
success leaves, and that the value of that length is the value modulo 2^256.
-/
namespace Sys2Proof.Machine

variable {s t : State} {m : Nat → Word}

/-! ### A success of TRUNC256 (R141, R146) -/

/-- The state after a TRUNC256 that succeeds with the length `n`; where MAG_LEN is not written, `n` is the length before. -/
def truncated (n : Word32) (s : State) : State := complete (setResult 0x00000000 (setMagLen n s))

theorem endsInSuccess_truncated (n : Word32) (s : State) : EndsInSuccess s (truncated n s) := endsInSuccess_complete rfl

@[simp] theorem valueOf_truncated (n : Word32) (s : State) (m : Nat → Word) :
    valueOf (truncated n s) m = val s.cfg m n.toNat := rfl

theorem truncated_frame (n : Word32) (s : State) :
    truncated n s = { s with magLen := n, result := 0, status := (truncated n s).status,
                             pending := (truncated n s).pending } := rfl

/-- A second success with the same length changes nothing: the first has already set STATUS so. -/
theorem truncated_truncated (n : Word32) (s : State) : truncated n (truncated n s) = truncated n s :=
  congrArg (fun status => { truncated n s with status }) (succeededStatus_idem s.status)

/-! ### What TRUNC256 answers (R141) -/

/-- The magnitude is zero, or its top word is written and not 0 (R34). -/
def CanonicalTop (s : State) : Prop :=
  s.magLen.toNat = 0 ∨ ∃ w, magRead s (s.magLen.toNat - 1) = some w ∧ w ≠ 0

theorem exec_trunc256 (s : State) : exec .trunc256 s = execTrunc256 s := rfl

/-- With at most K words, a success keeps the length. -/
theorem exec_trunc256_short (hlen : s.magLen.toNat ≤ s.cfg.maxWords) (htop : CanonicalTop s)
    (hk : s.magLen.toNat ≤ s.cfg.K) : exec .trunc256 s = .next (truncated s.magLen s) :=
  (execTrunc256_canonical hlen htop).trans (truncateWords_short hk)

/-- With more than K words, a success leaves the length at which the loop of R141 stops. -/
theorem exec_trunc256_long {i : Nat} (hlen : s.magLen.toNat ≤ s.cfg.maxWords) (htop : CanonicalTop s)
    (hk : s.cfg.K < s.magLen.toNat) (hloop : lengthWithoutTopZeros s s.cfg.K = some i) :
    exec .trunc256 s = .next (truncated (BitVec.ofNat 32 i) s) :=
  (execTrunc256_canonical hlen htop).trans (truncateWords_done hk hloop)

/-- The length at which the loop stops fits MAG_LEN. -/
theorem toNat_ofNat_lengthWithoutTopZeros {i : Nat} (hloop : lengthWithoutTopZeros s s.cfg.K = some i) :
    (BitVec.ofNat 32 i).toNat = i := by
  obtain ⟨hle, -⟩ := (lengthWithoutTopZeros_eq_some_iff s _ i).1 hloop
  have hK := Config.K_le s.cfg
  rw [BitVec.toNat_ofNat, Nat.mod_eq_of_lt (by omega)]

/-- The length `n` that R141 leaves in MAG_LEN: the one before with at most K words, else the one at which the loop
stops. -/
def LeavesLength (s : State) (n : Word32) : Prop :=
  (s.magLen.toNat ≤ s.cfg.K ∧ n = s.magLen) ∨
  (s.cfg.K < s.magLen.toNat ∧ lengthWithoutTopZeros s s.cfg.K = some n.toNat)

/-- Everything TRUNC256 can answer as a next state: an error, or a success on an in-bounds canonical magnitude. -/
theorem exec_trunc256_next (h : exec .trunc256 s = .next t) :
    (∃ e, t = raise e s) ∨
    ∃ n, t = truncated n s ∧ LeavesLength s n ∧ s.magLen.toNat ≤ s.cfg.maxWords ∧ CanonicalTop s := by
  rcases execTrunc256_next h with herr | ⟨ht, hlen, htop⟩
  · exact .inl herr
  · rcases truncateWords_next ht with ⟨hk, rfl⟩ | ⟨hk, i, hloop, rfl⟩
    · exact .inr ⟨s.magLen, rfl, .inl ⟨hk, rfl⟩, hlen, htop⟩
    · have hfits := toNat_ofNat_lengthWithoutTopZeros hloop
      exact .inr ⟨_, rfl, .inr ⟨hk, hloop.trans (congrArg some hfits.symm)⟩, hlen, htop⟩

/-- An ERR of 0 tells the success from the errors. -/
theorem exec_trunc256_success (h : exec .trunc256 s = .next t) (herr : errField t.status = 0) :
    ∃ n, t = truncated n s ∧ LeavesLength s n ∧ s.magLen.toNat ≤ s.cfg.maxWords ∧ CanonicalTop s := by
  rcases exec_trunc256_next h with ⟨e, rfl⟩ | hsuccess
  · exact absurd ((errField_raised s.status e).symm.trans herr) (code_ne_zero e)
  · exact hsuccess

/-- The length that TRUNC256 leaves is at most K, and it leaves an in-bounds canonical magnitude (R143). -/
theorem LeavesLength.short_and_canonical {n : Word32} (h : LeavesLength s n) (hlen : s.magLen.toNat ≤ s.cfg.maxWords)
    (htop : CanonicalTop s) :
    n.toNat ≤ s.cfg.K ∧ n.toNat ≤ s.cfg.maxWords ∧ CanonicalTop (truncated n s) := by
  rcases h with ⟨hk, rfl⟩ | ⟨hk, hloop⟩
  · exact ⟨hk, hlen, htop⟩
  · obtain ⟨hle, -, hstop⟩ := (lengthWithoutTopZeros_eq_some_iff s _ _).1 hloop
    exact ⟨hle, by omega, hstop⟩

/-! ### The value of the kept words (R142, R144) -/

/-- K words hold the value modulo 2^256, as `K * W = 256`. -/
theorem val_K (c : Config) (n : Nat) (hk : c.K ≤ n) (hm : ∀ i, (m i).toNat < 2 ^ c.W) :
    val c m c.K = val c m n % 2 ^ 256 := by
  rw [← val_mod c m n c.K hk fun i _ => hm i, Nat.mul_comm, Config.K_mul_W]

/-- No more than K words hold no more than 256 bits. -/
theorem val_lt_two_pow_256 (c : Config) (n : Nat) (hk : n ≤ c.K) (hm : ∀ i, (m i).toNat < 2 ^ c.W) :
    val c m n < 2 ^ 256 := by
  have hbits : c.W * n ≤ 256 := by rw [← Config.K_mul_W c, Nat.mul_comm]; exact Nat.mul_le_mul_right _ hk
  exact (val_lt c m n fun i _ => hm i).trans_le (Nat.pow_le_pow_right (by decide) hbits)

/-- The words below the length that TRUNC256 leaves are the value modulo 2^256: it drops the words from K on, then only
zero words. -/
theorem LeavesLength.val_eq {n : Word32} (h : LeavesLength s n) (hm : ∀ i, (m i).toNat < 2 ^ s.cfg.W)
    (hread : ∀ i w, magRead s i = some w → m i = w) : val s.cfg m n.toNat = valueOf s m % 2 ^ 256 := by
  rcases h with ⟨hk, rfl⟩ | ⟨hk, hloop⟩
  · exact (Nat.mod_eq_of_lt (val_lt_two_pow_256 s.cfg _ hk hm)).symm
  · obtain ⟨hle, hzero, -⟩ := (lengthWithoutTopZeros_eq_some_iff s _ _).1 hloop
    calc val s.cfg m n.toNat
      _ = val s.cfg m s.cfg.K := (val_drop_zero s.cfg m _ _ hle fun j h1 h2 => hread j 0 (hzero j h1 h2)).symm
      _ = valueOf s m % 2 ^ 256 := val_K s.cfg _ hk.le hm

/-! ### Presented magnitudes (R147) -/

/-- With every word below MAG_LEN written, the loop of R141 reads no unwritten word. -/
theorem PresentsMagnitude.lengthWithoutTopZeros_isSome (h : PresentsMagnitude s m) (hk : s.cfg.K < s.magLen.toNat) :
    ∃ i, lengthWithoutTopZeros s s.cfg.K = some i := by
  refine Option.ne_none_iff_exists'.1 fun hnone => ?_
  obtain ⟨i, hi, -, hunwritten⟩ := (lengthWithoutTopZeros_eq_none_iff s _).1 hnone
  exact absurd ((h.written i (by omega)).symm.trans hunwritten) (Option.some_ne_none _)

theorem PresentsMagnitude.canonicalTop (h : PresentsMagnitude s m) : CanonicalTop s :=
  (Nat.eq_zero_or_pos _).imp_right fun hn => ⟨_, h.written _ (Nat.sub_lt hn Nat.one_pos), h.canonical hn⟩

/-! ### The statements -/

/-- Settles O27: one lemma on what TRUNC256 answers for each case of R141, and where its loop stops. -/
theorem truncFollowsItsPseudocode : Obligations.TruncFollowsItsPseudocode := by
  intro s n k
  refine ⟨?badLength, fun hlen => ⟨execTrunc256_unwritten hlen, ?topZero, fun htop => ⟨?short, ?unwritten, ?long⟩⟩⟩
  case badLength => exact fun h => ⟨_, execTrunc256_badLength h, endsInError_raise _ s⟩
  case topZero => exact fun hn hr => ⟨_, execTrunc256_nonCanonical hlen hn hr, endsInError_raise _ s⟩
  case short => exact fun hk => ⟨_, exec_trunc256_short hlen htop hk, endsInSuccess_truncated _ s, rfl, rfl⟩
  case unwritten =>
    intro hk i hi hzero hnone
    have hloop := (lengthWithoutTopZeros_eq_none_iff s k).2 ⟨i, hi, hzero, hnone⟩
    rw [exec_trunc256, execTrunc256_canonical hlen htop, truncateWords_unwritten hk hloop]
  case long =>
    intro hk i hi hzero hstop
    have hloop := (lengthWithoutTopZeros_eq_some_iff s k i).2 ⟨hi, hzero, hstop⟩
    exact ⟨_, exec_trunc256_long hlen htop hk hloop, endsInSuccess_truncated _ s, rfl,
      toNat_ofNat_lengthWithoutTopZeros hloop, rfl⟩

/-- Settles O28: the value of the length left is the value modulo 2^256, and a mask of low bits is that modulus. -/
theorem truncLeavesTheValueModulo2Pow256 : Obligations.TruncLeavesTheValueModulo2Pow256 := by
  intro s t m hm hread h herr
  obtain ⟨n, rfl, hn, -⟩ := exec_trunc256_success h herr
  have hmod : valueOf (truncated n s) m = valueOf s m % 2 ^ 256 := by rw [valueOf_truncated, hn.val_eq hm hread]
  exact ⟨hmod, hmod.trans (Nat.and_two_pow_sub_one_eq_mod _ 256).symm⟩

/-- Settles O29: with more than K words the length is where the loop stopped. -/
theorem truncResultIsCanonical : Obligations.TruncResultIsCanonical := by
  intro s t h herr hk
  obtain ⟨n, rfl, ⟨hshort, -⟩ | ⟨-, hloop⟩, -⟩ := exec_trunc256_success h herr
  · exact absurd hk hshort.not_gt
  · exact (lengthWithoutTopZeros_eq_some_iff s _ _).1 hloop

/-- Settles O30: the first leaves an in-bounds canonical magnitude of at most K words, so the second keeps its length. -/
theorem truncIsIdempotent : Obligations.TruncIsIdempotent := by
  intro s t h herr
  obtain ⟨n, rfl, hn, hlen, htop⟩ := exec_trunc256_success h herr
  obtain ⟨hle, hlen', htop'⟩ := hn.short_and_canonical hlen htop
  have hagain : exec .trunc256 (truncated n s) = .next (truncated n (truncated n s)) :=
    exec_trunc256_short hlen' htop' hle
  exact ⟨hle, hagain.trans (congrArg _ (truncated_truncated n s))⟩

/-- Settles O31: TRUNC256's next state is an error completion or `truncated`, and each has this frame. -/
theorem truncWritesOnlyTheLength : Obligations.TruncWritesOnlyTheLength := by
  intro s t h
  rcases exec_trunc256_next h with ⟨e, rfl⟩ | ⟨n, rfl, hn, -⟩
  · exact ⟨rfl, fun _ => rfl⟩
  · refine ⟨truncated_frame n s, fun hk => ?_⟩
    rcases hn with ⟨-, hkept⟩ | ⟨hlong, -⟩
    · exact hkept
    · exact absurd hlong hk.not_gt

/-- Settles O32: a presented magnitude is in bounds and canonical, and its loop reads only written words; outside that
domain the cases are those of R141 (O27). -/
theorem truncSucceedsOnPresentedMagnitudes : Obligations.TruncSucceedsOnPresentedMagnitudes := by
  intro s
  obtain ⟨hbad, hin⟩ := truncFollowsItsPseudocode s
  refine ⟨fun m hp => ?success, hbad, fun hn hlen => ?topZero⟩
  case success =>
    rcases Nat.lt_or_ge s.cfg.K s.magLen.toNat with hk | hk
    · obtain ⟨i, hloop⟩ := hp.lengthWithoutTopZeros_isSome hk
      exact ⟨_, exec_trunc256_long hp.in_bounds hp.canonicalTop hk hloop, endsInSuccess_truncated _ s⟩
    · exact ⟨_, exec_trunc256_short hp.in_bounds hp.canonicalTop hk, endsInSuccess_truncated _ s⟩
  case topZero =>
    obtain ⟨-, hzero, -⟩ := hin hlen
    exact hzero hn

end Sys2Proof.Machine
end

section
/-!
PROOF. How a command ends (spec/60_exceptions.md R160 to R170): in success or in one error, which error of several, and
what becomes of the sticky STATUS.FAULT.
-/
namespace Sys2Proof.Machine

variable {i : Instr} {s t : State} {e : ErrCode}

/-! ### The two ways to end (R160) -/

/-- No completion is both: success leaves 0 in ERR, and no error's code is 0 (R161). -/
theorem EndsInError.not_endsInSuccess (h : EndsInError e s t) : ¬ EndsInSuccess s t := fun hs =>
  code_ne_zero e (h.err.symm.trans hs.err)

theorem exec_ends (h : exec i s = .next t) : EndsInSuccess s t ∨ ∃ e, EndsInError e s t := by
  rcases exec_next h with ⟨e, rfl⟩ | ⟨s', rfl, hframe⟩
  · exact .inr ⟨e, endsInError_raise e s⟩
  · have hstatus : s'.status = s.status := by rw [hframe]
    exact .inl (endsInSuccess_complete hstatus)

theorem coreTurn_ends (hp : s.pending = true) (h : coreTurn s = .next t) :
    EndsInSuccess s t ∨ ∃ e, EndsInError e s t := by
  rcases coreTurn_next h with ⟨hidle, -⟩ | ⟨-, i, -, hexec⟩ | ⟨-, rfl⟩
  · rw [hp] at hidle; cases hidle
  · exact exec_ends hexec
  · exact .inr ⟨_, endsInError_raise .illegalCommand s⟩

/-- Settles O33: the core's turn ends in one of the two completions, and they exclude each other. -/
theorem commandsEndInSuccessOrOneError : Obligations.CommandsEndInSuccessOrOneError := by
  intro s t hp h
  rcases coreTurn_ends hp h with hs | ⟨e, he⟩
  · exact .inl ⟨hs, fun ⟨_, he⟩ => he.not_endsInSuccess hs⟩
  · exact .inr ⟨he.not_endsInSuccess, e, he⟩

/-! ### The errors and their order (R163, R164, R170) -/

/-- An operand of the command is out of range (R164): MAG_LEN, or MARSHAL's capacity. -/
def OutOfRange (i : Instr) (s : State) : Prop :=
  s.cfg.maxWords < s.magLen.toNat ∨ (i = .marshal ∧ s.cfg.bufBytes < s.bufCap.toNat)

theorem not_outOfRange_iff : ¬ OutOfRange i s ↔
    s.magLen.toNat ≤ s.cfg.maxWords ∧ (i = .marshal → s.bufCap.toNat ≤ s.cfg.bufBytes) := by
  simp only [OutOfRange, not_or, not_and, Nat.not_lt]

theorem exec_outOfRange (h : OutOfRange i s) : exec i s = .next (raise .badOperand s) := by
  rcases h with hlen | ⟨rfl, hcap⟩
  · cases i with
    | marshal => exact execMarshal_badLength hlen
    | maxlen => exact execMaxlen_badLength hlen
    | trunc256 => exact execTrunc256_badLength hlen
  · exact execMarshal_badCapacity hcap

theorem exec_topUnwritten (h : ¬ OutOfRange i s) (hn : 0 < s.magLen.toNat)
    (hr : magRead s (s.magLen.toNat - 1) = none) : exec i s = .fault .unwrittenRead := by
  obtain ⟨hlen, hcap⟩ := not_outOfRange_iff.1 h
  cases i with
  | marshal => exact execMarshal_unwritten hlen (hcap rfl) hn hr
  | maxlen => exact execMaxlen_unwritten hlen hn hr
  | trunc256 => exact execTrunc256_unwritten hlen hn hr

theorem exec_topZero (h : ¬ OutOfRange i s) (hn : 0 < s.magLen.toNat)
    (hr : magRead s (s.magLen.toNat - 1) = some 0) : exec i s = .next (raise .nonCanonical s) := by
  obtain ⟨hlen, hcap⟩ := not_outOfRange_iff.1 h
  cases i with
  | marshal => exact execMarshal_nonCanonical hlen (hcap rfl) hn hr
  | maxlen => exact execMaxlen_nonCanonical hlen hn hr
  | trunc256 => exact execTrunc256_nonCanonical hlen hn hr

/-- Settles O34: either operand alone makes the command's operands out of range. -/
theorem outOfRangeOperandsAreBadOperand : Obligations.OutOfRangeOperandsAreBadOperand := fun s =>
  ⟨fun _ hlen => ⟨_, exec_outOfRange (.inl hlen), endsInError_raise .badOperand s⟩,
    fun hcap => ⟨_, exec_outOfRange (.inr ⟨rfl, hcap⟩), endsInError_raise .badOperand s⟩⟩

/-- Settles O35: the premises say that no operand is out of range, so the command reads the zero top word. -/
theorem zeroTopWordIsNonCanonical : Obligations.ZeroTopWordIsNonCanonical := fun _ s hlen hn hr hcap =>
  ⟨_, exec_topZero (not_outOfRange_iff.2 ⟨hlen, hcap⟩) hn hr, endsInError_raise .nonCanonical s⟩

/-- Settles O36: each case of R170 has its answer, whose status word holds the code of the error raised. -/
theorem firstErrorInPriorityOrderIsReported : Obligations.FirstErrorInPriorityOrderIsReported := by
  intro s
  refine ⟨fun why hp hd => ⟨_, coreTurn_illegal hp hd, errField_raised _ .illegalCommand⟩, ?_⟩
  intro i n bad
  refine ⟨fun hbad => ?outOfRange, exec_topUnwritten, fun hok hn hr => ?topZero, ?tooSmall⟩
  case outOfRange => exact ⟨_, exec_outOfRange hbad, errField_raised _ .badOperand⟩
  case topZero => exact ⟨_, exec_topZero hok hn hr, errField_raised _ .nonCanonical⟩
  case tooSmall =>
    rintro hok w hn hr hw rfl hlt
    obtain ⟨hlen, hcap⟩ := not_outOfRange_iff.1 hok
    exact ⟨_, exec_marshal_tooSmall hlen (hcap rfl) hn hr hw hlt, errField_raised _ .bufferTooSmall⟩

/-! ### The sticky FAULT (R168) -/

/-- Either completion leaves FAULT as it was, or as an ERR of 2, 3 or 4 sets it. -/
theorem faultBit_iff_of_ends (h : EndsInSuccess s t ∨ ∃ e, EndsInError e s t) :
    faultBit t.status = true ↔ faultBit s.status = true ∨ errField t.status = 2 ∨ errField t.status = 3 ∨
      errField t.status = 4 := by
  rcases h with hs | ⟨e, he⟩
  · simp [hs.fault, hs.err]
  · simp [he.fault, he.err, or_assoc]

/-- A host access keeps FAULT: the only one that writes STATUS is a CMD write, which keeps that bit (R24). -/
theorem faultBit_hostAccess {a : HostAccess} (h : hostAccess a s = .next t) :
    faultBit t.status = faultBit s.status := by
  rcases hostAccess_next h with
    ⟨r, rfl⟩ | ⟨-, rfl | ⟨c, -, rfl⟩ | ⟨v, rfl⟩ | ⟨v, rfl⟩ | ⟨i, v, -, -, rfl⟩ | ⟨j, v, -, -, rfl⟩⟩
  case inr.inr.inl => exact faultBit_started s.status
  all_goals rfl

theorem faultBit_hostTurn (h : hostTurn s = .next t) : faultBit t.status = faultBit s.status := by
  rcases hostTurn_next h with rfl | ⟨a, rest, -, haccess⟩ | ⟨r, l, rfl⟩
  · rfl
  · exact faultBit_hostAccess (s := { s with host := rest }) haccess
  · rfl

theorem faultBit_coreTurn_of_set (h : coreTurn s = .next t) (hset : faultBit s.status = true) :
    faultBit t.status = true := by
  rcases hp : s.pending with _ | _
  · rw [coreTurn_idle hp] at h; cases h; exact hset
  · exact (faultBit_iff_of_ends (coreTurn_ends hp h)).2 (.inl hset)

/-- Settles O37: the completions decide FAULT after a command, and of the three agents' moves only reset clears it. -/
theorem faultBitIsSticky : Obligations.FaultBitIsSticky := by
  refine ⟨fun s t hp h => faultBit_iff_of_ends (coreTurn_ends hp h), fun s why hp hd => ?illegal,
    fun i s t h => faultBit_iff_of_ends (exec_ends h), fun u s t h => ?turn⟩
  case illegal =>
    have herr := errField_raised s.status .illegalCommand
    exact ⟨_, coreTurn_illegal hp hd, herr,
      (faultBit_iff_of_ends (.inr ⟨_, endsInError_raise .illegalCommand s⟩)).2 (.inr (.inr (.inr herr)))⟩
  case turn =>
    cases u with
    | host => exact ⟨fun _ hset => (faultBit_hostTurn h).trans hset, nofun⟩
    | core => exact ⟨fun _ => faultBit_coreTurn_of_set h, nofun⟩
    | reset => cases h; exact ⟨fun hne => absurd rfl hne, fun _ => faultBit_zero⟩

end Sys2Proof.Machine
end

section
/-!
PROOF. Reset and the core's step (spec/70_reset_and_hazards.md R190, R191, R195, R196): what reset leaves, what the
core's turn does with a pending command, and MARSHAL into a buffer sized by MAXLEN.
-/
namespace Sys2Proof.Machine

variable {s t : State} {m : Nat → Word}

/-! ### Reset (R190, R191) -/

@[simp] theorem magRead_assertReset (s : State) (i : Nat) : magRead (assertReset s) i = none := rfl

@[simp] theorem bufRead_assertReset (s : State) (j : Nat) : bufRead (assertReset s) j = none := rfl

/-- CONFIG0 and CONFIG1 are computed from the build, which reset keeps. -/
theorem csrRead_config_of_cfg_eq (h : t.cfg = s.cfg) :
    csrRead 0x14 t = csrRead 0x14 s ∧ csrRead 0x18 t = csrRead 0x18 s :=
  ⟨congrArg config0 h, congrArg config1 h⟩

/-- Settles O54: the reset input answers `assertReset s`, whatever is pending. -/
theorem resetGivesEveryRegisterItsResetValue : Obligations.ResetGivesEveryRegisterItsResetValue := by
  intro s
  obtain ⟨hconfig0, hconfig1⟩ := csrRead_config_of_cfg_eq (assertReset_cfg s)
  exact ⟨assertReset s, rfl, assertReset_status s, assertReset_magLen s, assertReset_bufCap s, assertReset_result s,
    hconfig0, hconfig1, assertReset_pending s, assertReset_cmdlat s, magRead_assertReset s, bufRead_assertReset s⟩

/-! ### The core's step (R196) -/

/-- Either completion clears BUSY and PENDING and sets DONE. -/
theorem idle_and_done_of_ends (h : EndsInSuccess s t ∨ ∃ e, EndsInError e s t) :
    busyBit t.status = false ∧ t.pending = false ∧ doneBit t.status = true := by
  rcases h with hs | ⟨e, he⟩
  · exact ⟨hs.busy, hs.pending, hs.done⟩
  · exact ⟨he.busy, he.pending, he.done⟩

/-- Settles O8: the core performs what CMDLAT decodes to, and every next state of that is one of the two completions. -/
theorem coreStepPerformsPendingCommand : Obligations.CoreStepPerformsPendingCommand := by
  refine fun s => ⟨coreTurn_idle, fun hp => ⟨fun i => coreTurn_command hp, fun why hd => ?illegal, fun t h => ?ends⟩⟩
  case illegal => exact ⟨_, coreTurn_illegal hp hd, endsInError_raise .illegalCommand s⟩
  case ends => exact idle_and_done_of_ends (coreTurn_ends hp h)

/-! ### MARSHAL into a buffer sized by MAXLEN (R195) -/

@[simp] theorem csrWrite_bufCap (v : Word32) (s : State) : csrWrite 0x0C v s = { s with bufCap := v } := rfl

theorem exec_maxlen_of_presents (h : PresentsMagnitude s m) : exec .maxlen s = .next (completeMaxlen s) :=
  execMaxlen_canonical h.in_bounds h.canonicalTop

/-- MAXLEN leaves the presented magnitude in place. -/
theorem PresentsMagnitude.afterMaxlen (h : PresentsMagnitude s m) : PresentsMagnitude (completeMaxlen s) m :=
  ⟨h.in_bounds, h.written, h.width, h.canonical⟩

/-- Settles O26: the bound in RESULT is a capacity that BUF has and that the value's encoding fits (R132), so the
MARSHAL is a success by O18. -/
theorem sizingByMaxlenNeverTooSmall : Obligations.SizingByMaxlenNeverTooSmall := by
  intro s m hlegal hp hfit
  have hbound := completeMaxlen_result_toNat hlegal hp.in_bounds
  have hcap : (completeMaxlen s).result.toNat ≤ s.cfg.bufBytes := hbound.trans_le hfit
  have henc : minLen (valueOf s m) ≤ (completeMaxlen s).result.toNat := hbound ▸ minLen_valueOf_le hp
  obtain ⟨u, hexec, hend, hresult, hbytes, -⟩ := marshalWritesTheMinimalEncoding
    { completeMaxlen s with bufCap := (completeMaxlen s).result } m hlegal (hp.afterMaxlen.withCapacity _) hcap henc
  refine ⟨completeMaxlen s, u, exec_maxlen_of_presents hp, ?_, hend.err, hresult, hbytes⟩
  rw [csrWrite_bufCap, hexec]

end Sys2Proof.Machine
end

section
/-!
PROOF. What every step keeps (spec/10_state.md section 2): the build, and the invariant of the reachable states. Each
agent's move keeps them, and a step is one agent's move.
-/
namespace Sys2Proof.Machine

variable {i : Instr} {s s' t : State}

/-! ### A step is one agent's move (R17) -/

/-- Which agent moves at a step, on the state with its turn taken. -/
theorem step_eq_takeTurn (s : State) : ∃ u l, step s = takeTurn u { s with sched := l } := by
  rcases turn_cases s with ⟨s1, h⟩ | ⟨s1, h⟩ | ⟨rest, h⟩
  · exact ⟨.host, s1.sched, by rw [step_of_host h, ← h.frame]; rfl⟩
  · exact ⟨.core, s1.sched, by rw [step_of_core h, ← h.frame]; rfl⟩
  · exact ⟨.reset, rest, step_of_reset h⟩

/-! ### The frame of a command (R37) -/

/-- Error or success, a command writes at most BUF, MAG_LEN, RESULT, STATUS and PENDING. -/
theorem exec_frame (h : exec i s = .next t) :
    t = { s with mem := { s.mem with buf := t.mem.buf }, magLen := t.magLen, result := t.result, status := t.status,
                 pending := t.pending } := by
  rcases exec_next h with ⟨e, rfl⟩ | ⟨s', rfl, hframe⟩
  · rfl
  · rw [hframe]; rfl

/-- An idle core's turn and an illegal word have the frame of a command too. -/
theorem coreTurn_frame (h : coreTurn s = .next t) :
    t = { s with mem := { s.mem with buf := t.mem.buf }, magLen := t.magLen, result := t.result, status := t.status,
                 pending := t.pending } := by
  rcases coreTurn_next h with ⟨-, rfl⟩ | ⟨-, i, -, hexec⟩ | ⟨-, rfl⟩
  · rfl
  · exact exec_frame hexec
  · rfl

/-! ### The build (R6, R28, R29) -/

theorem hostAccess_cfg {a : HostAccess} (h : hostAccess a s = .next t) : t.cfg = s.cfg := by
  rcases hostAccess_next h with
    ⟨r, rfl⟩ | ⟨-, rfl | ⟨c, -, rfl⟩ | ⟨v, rfl⟩ | ⟨v, rfl⟩ | ⟨i, v, -, -, rfl⟩ | ⟨j, v, -, -, rfl⟩⟩
  all_goals rfl

theorem hostTurn_cfg (h : hostTurn s = .next t) : t.cfg = s.cfg := by
  rcases hostTurn_next h with rfl | ⟨a, rest, -, haccess⟩ | ⟨r, l, rfl⟩
  · rfl
  · exact hostAccess_cfg (s := { s with host := rest }) haccess
  · rfl

theorem takeTurn_cfg {u : Turn} (h : takeTurn u s = .next t) : t.cfg = s.cfg := by
  cases u with
  | host => exact hostTurn_cfg h
  | core => rw [coreTurn_frame h]
  | reset => cases h; exact assertReset_cfg s

/-- Settles O14: no agent's move changes the build. -/
theorem stepKeepsTheBuild : Obligations.StepKeepsTheBuild := by
  intro s t h
  obtain ⟨u, l, hstep⟩ := step_eq_takeTurn s
  exact takeTurn_cfg (s := { s with sched := l }) (hstep ▸ h)

/-! ### The invariant at reset (R190, R191) -/

/-- The invariant speaks of the build, the storage, STATUS, PENDING and RESULT only. -/
theorem State.Inv.congr (h : s.Inv) (hcfg : t.cfg = s.cfg) (hmem : t.mem = s.mem) (hstatus : t.status = s.status)
    (hpending : t.pending = s.pending) (hresult : t.result = s.result) : t.Inv where
  legal := by rw [hcfg]; exact h.legal
  wf := by rw [hmem]; exact h.wf
  fits := by rw [hmem, hcfg]; exact h.fits
  busy_eq_pending := by rw [hstatus, hpending]; exact h.busy_eq_pending
  busy_not_done := by rw [hstatus]; exact h.busy_not_done
  reserved_zero := by rw [hstatus]; exact h.reserved_zero
  err_le_four := by rw [hstatus]; exact h.err_le_four
  fault_of_err := by rw [hstatus]; exact h.fault_of_err
  result_zero_of_err := by rw [hstatus, hresult]; exact h.result_zero_of_err

theorem resetOf_inv {c : Config} (h : c.legal = true) : (State.resetOf c).Inv where
  legal := h
  wf := rfl
  fits := rfl
  busy_eq_pending := busyBit_zero
  busy_not_done := fun h => absurd h (by rw [resetOf_status]; decide)
  reserved_zero := reservedBits_zero
  err_le_four := by rw [resetOf_status]; decide
  fault_of_err := fun h => absurd h (by rw [resetOf_status]; decide)
  result_zero_of_err := fun _ => rfl

theorem State.Inv.assertReset (h : s.Inv) : (assertReset s).Inv :=
  (resetOf_inv h.legal).congr rfl rfl rfl rfl rfl

/-- Settles O56: the reference build is one of the legal builds. -/
theorem resetMeetsTheInvariant : Obligations.ResetMeetsTheInvariant :=
  ⟨resetOf_inv (by decide), fun _ => resetOf_inv⟩

/-! ### The core's move keeps the invariant -/

/-- A code of 2 or more is a sticky one (R168). -/
theorem sticky_of_two_le {e : ErrCode} (h : 2 ≤ e.code.toNat) : e.sticky = true := by
  cases e with
  | bufferTooSmall => exact absurd h (by decide)
  | nonCanonical => rfl
  | badOperand => rfl
  | illegalCommand => rfl

theorem State.Inv.raise (h : s.Inv) (e : ErrCode) : (raise e s).Inv where
  legal := h.legal
  wf := h.wf
  fits := h.fits
  busy_eq_pending := busyBit_raised _ _
  busy_not_done := fun hb => absurd hb (by rw [raise_status, busyBit_raised]; decide)
  reserved_zero := (reservedBits_raised _ _).trans h.reserved_zero
  err_le_four := (errField_raised _ e).symm ▸ code_le_four e
  fault_of_err := fun he => by
    rw [raise_status, errField_raised] at he
    rw [raise_status, faultBit_raised, sticky_of_two_le he, Bool.or_true]
  result_zero_of_err := fun _ => rfl

/-- A success whose writes keep the storage's form and STATUS meets the invariant, whatever it wrote to RESULT. -/
theorem State.Inv.complete (h : s.Inv) (hcfg : s'.cfg = s.cfg) (hstatus : s'.status = s.status)
    (hwf : s'.mem.wf = true) (hfits : s'.mem.fits s.cfg = true) : (complete s').Inv where
  legal := (congrArg Config.legal hcfg).trans h.legal
  wf := hwf
  fits := (congrArg (Memory.fits · s'.mem) hcfg).trans hfits
  busy_eq_pending := busyBit_succeeded _
  busy_not_done := fun hb => absurd hb (by rw [complete_status, busyBit_succeeded]; decide)
  reserved_zero := (reservedBits_succeeded _).trans (hstatus ▸ h.reserved_zero)
  err_le_four := by rw [complete_status, errField_succeeded]; decide
  fault_of_err := fun he => absurd he (by rw [complete_status, errField_succeeded]; decide)
  result_zero_of_err := fun he => absurd (errField_succeeded _) he

theorem exec_keeps_inv (hinv : s.Inv) (h : exec i s = .next t) : t.Inv := by
  cases i with
  | marshal =>
    rcases execMarshal_next h with ⟨e, rfl⟩ | ⟨bs, rfl, -, hcap, hbs, -⟩
    · exact hinv.raise e
    · exact hinv.complete rfl rfl (wf_bufWriteAll s bs hinv.wf) (fits_bufWriteAll s bs (hbs.trans hcap) hinv.fits)
  | maxlen =>
    rcases execMaxlen_next h with ⟨e, rfl⟩ | ⟨rfl, -⟩
    · exact hinv.raise e
    · exact hinv.complete rfl rfl hinv.wf hinv.fits
  | trunc256 =>
    rcases exec_trunc256_next h with ⟨e, rfl⟩ | ⟨n, rfl, -⟩
    · exact hinv.raise e
    · exact hinv.complete rfl rfl hinv.wf hinv.fits

theorem coreTurn_keeps_inv (hinv : s.Inv) (h : coreTurn s = .next t) : t.Inv := by
  rcases coreTurn_next h with ⟨-, rfl⟩ | ⟨-, i, -, hexec⟩ | ⟨-, rfl⟩
  · exact hinv
  · exact exec_keeps_inv hinv hexec
  · exact hinv.raise .illegalCommand

/-! ### The host's move keeps the invariant -/

theorem State.Inv.startCommand (h : s.Inv) (c : Word32) : (startCommand c s).Inv where
  legal := h.legal
  wf := h.wf
  fits := h.fits
  busy_eq_pending := busyBit_started _
  busy_not_done := fun _ => doneBit_started _
  reserved_zero := (reservedBits_started _).trans h.reserved_zero
  err_le_four := by rw [startCommand_status, errField_started]; exact h.err_le_four
  fault_of_err := by rw [startCommand_status, errField_started, faultBit_started]; exact h.fault_of_err
  result_zero_of_err := by rw [startCommand_status, errField_started]; exact h.result_zero_of_err

/-- A write of storage keeps the invariant when it keeps the storage's form. -/
theorem State.Inv.withMem (h : s.Inv) {mem : Memory} (hwf : mem.wf = true) (hfits : mem.fits s.cfg = true) :
    ({ s with mem } : State).Inv :=
  { h with wf := hwf, fits := hfits }

theorem toNat_toPortWidth (c : Config) (v : Word) : (toPortWidth c v).toNat = v.toNat % 2 ^ c.W := by
  rw [toPortWidth, BitVec.toNat_ofNat]
  exact Nat.mod_eq_of_lt ((Nat.mod_le _ _).trans_lt v.isLt)

theorem hostAccess_keeps_inv {a : HostAccess} (hinv : s.Inv) (h : hostAccess a s = .next t) : t.Inv := by
  rcases hostAccess_next h with
    ⟨r, rfl⟩ | ⟨-, rfl | ⟨c, -, rfl⟩ | ⟨v, rfl⟩ | ⟨v, rfl⟩ | ⟨i, v, -, hi, rfl⟩ | ⟨j, v, -, hj, rfl⟩⟩
  · exact hinv.congr rfl rfl rfl rfl rfl
  · exact hinv
  · exact hinv.startCommand c
  · exact hinv.congr rfl rfl rfl rfl rfl
  · exact hinv.congr rfl rfl rfl rfl rfl
  · have hv : (toPortWidth s.cfg v).toNat < 2 ^ s.cfg.W := by
      rw [toNat_toPortWidth]; exact Nat.mod_lt _ (by positivity)
    exact hinv.withMem (wf_magWrite s _ _ hinv.wf) (fits_magWrite s _ _ hi hv hinv.fits)
  · exact hinv.withMem (wf_bufWrite s _ _ hinv.wf) (fits_bufWrite s _ _ hj hinv.fits)

theorem hostTurn_keeps_inv (hinv : s.Inv) (h : hostTurn s = .next t) : t.Inv := by
  rcases hostTurn_next h with rfl | ⟨a, rest, -, haccess⟩ | ⟨r, l, rfl⟩
  · exact hinv
  · exact hostAccess_keeps_inv (s := { s with host := rest }) (hinv.congr rfl rfl rfl rfl rfl) haccess
  · exact hinv.congr rfl rfl rfl rfl rfl

/-! ### Every step keeps the invariant -/

theorem takeTurn_keeps_inv {u : Turn} (hinv : s.Inv) (h : takeTurn u s = .next t) : t.Inv := by
  cases u with
  | host => exact hostTurn_keeps_inv hinv h
  | core => exact coreTurn_keeps_inv hinv h
  | reset => cases h; exact hinv.assertReset

/-- Settles O57: the step is one agent's move, and each agent's move keeps the invariant. -/
theorem stepKeepsTheInvariant : Obligations.StepKeepsTheInvariant := by
  intro s t hinv h
  obtain ⟨u, l, hstep⟩ := step_eq_takeTurn s
  have hinv' : ({ s with sched := l } : State).Inv := hinv.congr rfl rfl rfl rfl rfl
  exact takeTurn_keeps_inv hinv' (hstep ▸ h)

end Sys2Proof.Machine
end

section
/-!
PROOF. The fields of a command word decide it (spec/30_encoding.md R71 to R74): a word with a command's OP and RSV = 0
is that command's word.
-/
namespace Sys2Proof

variable {c : Word32} {i : Instr}

/-- Settles O2: the two directions of `decode_eq_command_iff`. -/
theorem decodeInvertsEncode : Obligations.DecodeInvertsEncode := fun _ _ => decode_eq_command_iff

/-- A command word is its RSV above its OP (R71). -/
theorem rsvField_append_opField (c : Word32) : (rsvField c ++ opField c : Word32) = c := by
  apply BitVec.eq_of_getLsbD_eq
  intro k hk
  rw [BitVec.getLsbD_append, opField, rsvField, BitVec.getLsbD_extractLsb', BitVec.getLsbD_extractLsb']
  by_cases hop : k < 4
  · simp [hop]
  · simp [hop, show k - 4 < 28 by omega, show 4 + (k - 4) = k by omega]

/-- Every OP but the reserved values 0x0 and 0x4 to 0xF is a command's (R72). -/
theorem exists_opcode_of_not_reserved (op : BitVec 4) (h0 : op ≠ 0) (h4 : op.toNat < 4) : ∃ i, opcode i = op := by
  have hcases : op = 1 ∨ op = 2 ∨ op = 3 := by bv_omega
  rcases hcases with rfl | rfl | rfl
  · exact ⟨.marshal, rfl⟩
  · exact ⟨.maxlen, rfl⟩
  · exact ⟨.trunc256, rfl⟩

/-- A word with RSV = 0 whose OP is not reserved decodes to a command. -/
theorem decode_command_of_fields (h0 : opField c ≠ 0) (h4 : (opField c).toNat < 4) (hrsv : rsvField c = 0) :
    ∃ i, decode c = .command i := by
  obtain ⟨i, hi⟩ := exists_opcode_of_not_reserved _ h0 h4
  have hc : c = encode i := by rw [encode, hi, ← hrsv, rsvField_append_opField]
  exact ⟨i, decode_eq_command_iff.2 hc⟩

/-- Settles O3: reserved fields make a word illegal, and a word without them decodes to a command. -/
theorem illegalWordsAreReservedOpOrRsv : Obligations.IllegalWordsAreReservedOpOrRsv := by
  refine fun c => ⟨fun ⟨why, hwhy⟩ => ?_, decode_illegal_of_fields⟩
  by_contra hfields
  push Not at hfields
  obtain ⟨h0, h4, hrsv⟩ := hfields
  obtain ⟨i, hi⟩ := decode_command_of_fields h0 h4 hrsv
  exact absurd (hwhy.symm.trans hi) nofun

/-- Settles O4: each word is decoded by evaluation. -/
theorem specWordsDecode : Obligations.SpecWordsDecode := ⟨rfl, rfl, rfl, rfl, rfl, rfl⟩

end Sys2Proof
end

section
/-!
PROOF. Whose move a step is, what the mover does, and how a step can stop (spec/00_scope.md R17, spec/30_encoding.md
R79, spec/60_exceptions.md R182, spec/70_reset_and_hazards.md R196).
-/
namespace Sys2Proof.Machine

variable {s s1 t : State}

/-! ### The mover's turn (R17, R196) -/

/-- Settles O7: the three movers have one lemma each. -/
theorem stepIsTheMoversTurn : Obligations.StepIsTheMoversTurn := fun _ _ =>
  ⟨step_of_host, step_of_core, fun _ => step_of_reset⟩

/-- Settles O5: the core moves, on a state with the same pending word. -/
theorem stepRunsTheDecodedCommand : Obligations.StepRunsTheDecodedCommand := by
  intro s s1 i hd hp hcore
  have hframe := hcore.frame
  rw [step_of_core hcore, coreTurn_command (by rw [hframe]; exact hp) (by rw [hframe]; exact hd)]

theorem tableWord_toNat (c : Word32) : tableWord 32 c.toNat = c := by
  rw [tableWord, Nat.mod_eq_of_lt c.isLt, BitVec.ofNat_toNat, BitVec.setWidth_eq]

/-- Placing a word is a CMD write after which the core moves first. -/
theorem coreToMove_withFetchWord (s : State) (c : Word32) :
    CoreToMove (s.withFetchWord 32 c.toNat) (startCommand c s) := by
  rw [State.withFetchWord, tableWord_toNat]
  exact .inl ⟨s.sched, rfl, rfl⟩

/-- Settles O6: the core moves on the started command, whose word decodes to it. -/
theorem placedWordRunsNext : Obligations.PlacedWordRunsNext := fun s i => by
  rw [step_of_core (coreToMove_withFetchWord s (encode i)), coreTurn_command rfl (decode_encode i)]

/-! ### The host's turn (R78, R79) -/

/-- Settles O10: the access case of the host's turn. -/
theorem hostTurnMakesTheNextAccess : Obligations.HostTurnMakesTheNextAccess := fun _ _ _ => hostTurn_access

/-- Settles O11: the wait case of the host's turn, where bit 0 of STATUS is BUSY. -/
theorem waitPollsStatusUntilNotBusy : Obligations.WaitPollsStatusUntilNotBusy := by
  intro s rest hh
  have hturn := hostTurn_wait hh
  refine ⟨fun (hb : busyBit s.status = true) => ?busy, fun (hb : busyBit s.status = false) => ?idle⟩
  case busy => rw [if_pos hb] at hturn; exact hturn
  case idle => rw [if_neg (by simp [hb])] at hturn; exact hturn

/-! ### Idle steps (R181, R201) -/

/-- Settles O12: with nothing pending the host moves, and it has no statement left. -/
theorem endedRunStaysPut : Obligations.EndedRunStaysPut := by
  intro s hended hs
  simp only [State.ended, Bool.and_eq_true, List.isEmpty_iff, Bool.not_eq_true'] at hended
  obtain ⟨hh, hp⟩ := hended
  rw [step_of_host (.inr ⟨hs, hp, rfl⟩), hostTurn_done hh]

/-- Settles O55: the reset state is one whose run has ended (O12). -/
theorem resetStateIsIdle : Obligations.ResetStateIsIdle :=
  ⟨rfl, rfl, rfl, rfl, rfl, rfl, fun _ => rfl, fun _ => rfl, endedRunStaysPut State.reset rfl rfl⟩

/-! ### Stops (R182) -/

/-- The host's turn answers a next state, UNWRITTEN_READ, or, while BUSY, HOST_RACE. -/
theorem hostTurn_stops (s : State) :
    (∃ t, hostTurn s = .next t) ∨ hostTurn s = .fault .unwrittenRead ∨
      (busyBit s.status = true ∧ hostTurn s = .fault .hostRace) := by
  rcases hh : s.host with _ | ⟨_ | _, rest⟩
  · exact .inl ⟨s, hostTurn_done hh⟩
  · rw [hostTurn_access hh]
    exact hostAccess_stops _ { s with host := rest }
  · exact .inl ⟨_, hostTurn_wait hh⟩

/-- The two faults of R182 are the only stops of a step, and HOST_RACE is the host's while BUSY. -/
theorem step_stops (s : State) :
    (∃ t, step s = .next t) ∨ step s = .fault .unwrittenRead ∨
      (step s = .fault .hostRace ∧ ∃ s1, HostToMove s s1 ∧ busyBit s.status = true) := by
  rcases turn_cases s with ⟨s1, hhost⟩ | ⟨s1, hcore⟩ | ⟨rest, hreset⟩
  · have hbusy : busyBit s1.status = busyBit s.status := by rw [hhost.frame]
    rw [step_of_host hhost]
    rcases hostTurn_stops s1 with hnext | hfault | ⟨hb, hrace⟩
    · exact .inl hnext
    · exact .inr (.inl hfault)
    · exact .inr (.inr ⟨hrace, s1, hhost, hbusy ▸ hb⟩)
  · rw [step_of_core hcore]
    exact (coreTurn_stops s1).imp_right .inl
  · exact .inl ⟨_, step_of_reset hreset⟩

/-- Settles O13: the answers of `step_stops` exclude each other. -/
theorem stepStopsOnlyByTheTwoModelFaults : Obligations.StepStopsOnlyByTheTwoModelFaults := by
  intro s
  rcases step_stops s with ⟨t, h⟩ | h | ⟨h, hhost⟩ <;> rw [h]
  · exact ⟨nofun, nofun⟩
  · exact ⟨nofun, nofun⟩
  · exact ⟨nofun, fun _ => hhost⟩

end Sys2Proof.Machine
end

section
/-!
PROOF. What holds of every command (spec/10_state.md R30, R33, R37): what it leaves alone, that it reads no word at
MAG_LEN or above, and that it stops only on an unwritten word below MAG_LEN.
-/
namespace Sys2Proof.Machine

variable {i : Instr} {s t : State} {m : Nat → Word} {g : List (Nat × Word)}

/-! ### The frame (R37, R55) -/

theorem exec_maxlen_mem (h : exec .maxlen s = .next t) : t.mem = s.mem ∧ t.magLen = s.magLen := by
  rcases execMaxlen_next h with ⟨e, rfl⟩ | ⟨rfl, -⟩
  · exact ⟨rfl, rfl⟩
  · exact ⟨rfl, rfl⟩

theorem exec_trunc256_mem (h : exec .trunc256 s = .next t) : t.mem = s.mem := by
  rw [(truncWritesOnlyTheLength s t h).1]

/-- Only MARSHAL writes storage. -/
theorem exec_mem (hi : i ≠ .marshal) (h : exec i s = .next t) : t.mem = s.mem := by
  cases i with
  | marshal => exact absurd rfl hi
  | maxlen => exact (exec_maxlen_mem h).1
  | trunc256 => exact exec_trunc256_mem h

/-- Only TRUNC256 writes MAG_LEN. -/
theorem exec_magLen (hi : i ≠ .trunc256) (h : exec i s = .next t) : t.magLen = s.magLen := by
  cases i with
  | marshal =>
    rcases execMarshal_next h with ⟨e, rfl⟩ | ⟨bs, rfl, -⟩
    · rfl
    · rfl
  | maxlen => exact (exec_maxlen_mem h).2
  | trunc256 => exact absurd rfl hi

/-- No command writes a BUF byte at RESULT or above: MARSHAL by R109, the others write none. -/
theorem bufRead_exec (hlegal : s.cfg.legal = true) (h : exec i s = .next t) (j : Nat) (hj : t.result.toNat ≤ j) :
    bufRead t j = bufRead s j := by
  by_cases hi : i = .marshal
  · subst hi
    obtain ⟨-, -, -, -, -, hbuf, -⟩ := marshalLeavesTheRestAlone s t hlegal h
    exact hbuf j hj
  · rw [bufRead, exec_mem hi h, bufRead]

/-- Settles O38: `exec_frame` says what no command writes, and one lemma each what only one command writes. -/
theorem commandsKeepTheirFrame : Obligations.CommandsKeepTheirFrame := by
  intro i s t hlegal h
  have hframe := exec_frame h
  refine ⟨?_, ?_, ?_, ?_, ?_, ?_, ?_, fun hi => congrArg Memory.buf (exec_mem hi h), fun hi => exec_magLen hi h,
    bufRead_exec hlegal h⟩
  all_goals rw [hframe]

/-! ### Words at MAG_LEN and above (R30, R113) -/

/-- The state with the words `g` in place of its own. -/
def withMag (g : List (Nat × Word)) (s : State) : State := { s with mem := { s.mem with mag := g } }

/-- `g` has the words of `s` below MAG_LEN, written or not. -/
def AgreesBelow (g : List (Nat × Word)) (s : State) : Prop := ∀ k, k < s.magLen.toNat → Store.read g k = magRead s k

/-- The same words put into the next state of an outcome. -/
def outcomeWithMag (g : List (Nat × Word)) : Result → Result
  | .next t => .next (withMag g t)
  | .fault f => .fault f
  | .refused r => .refused r

section
variable (hg : AgreesBelow g s)
include hg

theorem AgreesBelow.magRead_eq {k : Nat} (hk : k < s.magLen.toNat) : magRead (withMag g s) k = magRead s k := hg k hk

theorem AgreesBelow.topWord_eq : topWord (withMag g s) = topWord s := by
  rcases Nat.eq_zero_or_pos s.magLen.toNat with hn | hn
  · rw [topWord_of_zero hn, topWord_of_zero (s := withMag g s) hn]
  · have hlen : (withMag g s).magLen = s.magLen := rfl
    rw [topWord_of_pos hn, topWord_of_pos (s := withMag g s) hn, hlen, hg.magRead_eq (by omega)]

theorem AgreesBelow.wordsBelow_eq (k : Nat) (hk : k ≤ s.magLen.toNat) :
    wordsBelow (withMag g s) k = wordsBelow s k := by
  induction k with
  | zero => rfl
  | succ k ih => simp only [wordsBelow, hg.magRead_eq hk, ih (by omega)]

theorem AgreesBelow.lengthWithoutTopZeros_eq (k : Nat) (hk : k ≤ s.magLen.toNat) :
    lengthWithoutTopZeros (withMag g s) k = lengthWithoutTopZeros s k := by
  induction k with
  | zero => rfl
  | succ k ih => simp only [lengthWithoutTopZeros, hg.magRead_eq hk, ih (by omega)]

theorem AgreesBelow.marshalWords_eq (w : Word) :
    marshalWords w (withMag g s) = outcomeWithMag g (marshalWords w s) := by
  by_cases hcap : s.bufCap.toNat < encodedLength s.cfg s.magLen.toNat w
  · rw [marshalWords_tooSmall hcap, marshalWords_tooSmall (s := withMag g s) hcap]; rfl
  · have hbelow := hg.wordsBelow_eq (s.magLen.toNat - 1) (Nat.sub_le _ _)
    rcases hr : wordsBelow s (s.magLen.toNat - 1) with _ | lower
    · rw [marshalWords_unwritten (by omega) hr,
        marshalWords_unwritten (s := withMag g s) (not_lt.1 hcap) (hbelow.trans hr)]; rfl
    · rw [marshalWords_done (by omega) hr,
        marshalWords_done (s := withMag g s) (not_lt.1 hcap) (hbelow.trans hr)]; rfl

theorem AgreesBelow.truncateWords_eq : truncateWords (withMag g s) = outcomeWithMag g (truncateWords s) := by
  by_cases hk : s.cfg.K < s.magLen.toNat
  · have hloop := hg.lengthWithoutTopZeros_eq s.cfg.K hk.le
    rcases hr : lengthWithoutTopZeros s s.cfg.K with _ | n
    · rw [truncateWords_unwritten hk hr, truncateWords_unwritten (s := withMag g s) hk (hloop.trans hr)]; rfl
    · rw [truncateWords_done hk hr, truncateWords_done (s := withMag g s) hk (hloop.trans hr)]; rfl
  · rw [truncateWords_short (not_lt.1 hk), truncateWords_short (s := withMag g s) (not_lt.1 hk)]; rfl

/-- A command with other words at MAG_LEN and above does what it did, and carries those words along. -/
theorem AgreesBelow.exec_eq (i : Instr) : exec i (withMag g s) = outcomeWithMag g (exec i s) := by
  by_cases hbad : OutOfRange i s
  · rw [exec_outOfRange hbad, exec_outOfRange (s := withMag g s) hbad]; rfl
  obtain ⟨hlen, hcap⟩ := not_outOfRange_iff.1 hbad
  have htop := hg.topWord_eq
  cases i with
  | marshal =>
    change execMarshal (withMag g s) = outcomeWithMag g (execMarshal s)
    rw [execMarshal_inBounds hlen (hcap rfl), execMarshal_inBounds (s := withMag g s) hlen (hcap rfl), htop]
    rcases topWord s with _ | _ | _ | w
    · rfl
    · rfl
    · rfl
    · exact hg.marshalWords_eq w
  | maxlen =>
    change execMaxlen (withMag g s) = outcomeWithMag g (execMaxlen s)
    rw [execMaxlen_inBounds hlen, execMaxlen_inBounds (s := withMag g s) hlen, htop]
    rcases topWord s with _ | _ | _ | w
    all_goals rfl
  | trunc256 =>
    change execTrunc256 (withMag g s) = outcomeWithMag g (execTrunc256 s)
    rw [execTrunc256_inBounds hlen, execTrunc256_inBounds (s := withMag g s) hlen, htop]
    rcases topWord s with _ | _ | _ | w
    · exact hg.truncateWords_eq
    · rfl
    · rfl
    · exact hg.truncateWords_eq

end

/-- Settles O39: the outcome is the same up to the words put in. -/
theorem wordsAboveTheLengthAreNotRead : Obligations.WordsAboveTheLengthAreNotRead := by
  intro i s g hg
  have hexec := AgreesBelow.exec_eq hg i
  exact ⟨fun t h => hexec.trans (congrArg (outcomeWithMag g) h), fun f h => hexec.trans (congrArg (outcomeWithMag g) h)⟩

/-! ### Unwritten words (R33, R113, R131, R141) -/

/-- On a written canonical magnitude in bounds every command answers a next state. -/
theorem exec_canonical_goes_on (hok : ¬ OutOfRange i s) (hm : ∀ k, k < s.magLen.toNat → magRead s k = some (m k))
    (hc : 0 < s.magLen.toNat → m (s.magLen.toNat - 1) ≠ 0) : ∃ t, exec i s = .next t := by
  obtain ⟨hlen, hcap⟩ := not_outOfRange_iff.1 hok
  have htop : CanonicalTop s :=
    (Nat.eq_zero_or_pos _).imp_right fun hn => ⟨_, hm _ (Nat.sub_lt hn Nat.one_pos), hc hn⟩
  cases i with
  | marshal =>
    rcases Nat.lt_or_ge s.bufCap.toNat (encodedLength s.cfg s.magLen.toNat (m (s.magLen.toNat - 1))) with hlt | hfit
    · have hn : 0 < s.magLen.toNat := by
        refine Nat.pos_of_ne_zero fun hn => ?_
        rw [hn, encodedLength_zero] at hlt
        exact Nat.not_lt_zero _ hlt
      exact ⟨_, exec_marshal_tooSmall hlen (hcap rfl) hn (hm _ (Nat.sub_lt hn Nat.one_pos)) (hc hn) hlt⟩
    · obtain ⟨bs, hexec, -⟩ := exec_marshal_fits hlen (hcap rfl) hm hc rfl hfit
      exact ⟨_, hexec⟩
  | maxlen => exact ⟨_, execMaxlen_canonical hlen htop⟩
  | trunc256 =>
    rcases Nat.lt_or_ge s.cfg.K s.magLen.toNat with hk | hk
    · rcases hloop : lengthWithoutTopZeros s s.cfg.K with _ | n
      · obtain ⟨k, hlt, -, hnone⟩ := (lengthWithoutTopZeros_eq_none_iff s _).1 hloop
        exact absurd ((hm k (by omega)).symm.trans hnone) (Option.some_ne_none _)
      · exact ⟨_, exec_trunc256_long hlen htop hk hloop⟩
    · exact ⟨_, exec_trunc256_short hlen htop hk⟩

/-- With every word below MAG_LEN written, every command answers a next state. -/
theorem exec_written_goes_on (hm : ∀ k, k < s.magLen.toNat → magRead s k = some (m k)) : ∃ t, exec i s = .next t := by
  by_cases hbad : OutOfRange i s
  · exact ⟨_, exec_outOfRange hbad⟩
  by_cases hzero : 0 < s.magLen.toNat ∧ m (s.magLen.toNat - 1) = 0
  · obtain ⟨hn, h0⟩ := hzero
    exact ⟨_, exec_topZero hbad hn (h0 ▸ hm _ (Nat.sub_lt hn Nat.one_pos))⟩
  · exact exec_canonical_goes_on hbad hm fun hn h0 => hzero ⟨hn, h0⟩

/-- A command that stops has a word below MAG_LEN that nothing wrote. -/
theorem exists_unwritten_of_fault {f : Fault} (h : exec i s = .fault f) :
    ∃ k, k < s.magLen.toNat ∧ magRead s k = none := by
  by_contra hall
  push Not at hall
  have hm : ∀ k, k < s.magLen.toNat → magRead s k = some ((magRead s k).getD 0) := fun k hk => by
    obtain ⟨w, hw⟩ := Option.ne_none_iff_exists'.1 (hall k hk)
    rw [hw, Option.getD_some]
  obtain ⟨t, ht⟩ := exec_written_goes_on (i := i) hm
  exact absurd (h.symm.trans ht) nofun

/-- Settles O40: an operand out of range is an error, not a stop, and a command with all its words written goes on. -/
theorem commandsStopOnlyOnUnwrittenWords : Obligations.CommandsStopOnlyOnUnwrittenWords := by
  intro i s
  rcases exec_stops i s with ⟨t, h⟩ | h
  · rw [h]; exact ⟨nofun, nofun, nofun⟩
  · have hok : ¬ OutOfRange i s := fun hbad => absurd (h.symm.trans (exec_outOfRange hbad)) nofun
    obtain ⟨hlen, -⟩ := not_outOfRange_iff.1 hok
    obtain ⟨k, hk, hnone⟩ := exists_unwritten_of_fault h
    rw [h]
    exact ⟨nofun, nofun, fun _ => ⟨k, hk, hlen, hnone⟩⟩

end Sys2Proof.Machine
end

section
/-!
PROOF. The host port (spec/10_state.md R24 to R29, R33, R35; spec/20_memory.md R52 to R55, R62;
spec/70_reset_and_hazards.md R197): the registers, MAG and BUF while not BUSY, the accesses that go on while BUSY, and who writes storage.
-/
namespace Sys2Proof.Machine

variable {s t : State} {a : HostAccess}

/-! ### The CSR space (R22, R35) -/

theorem hostAccess_csrr_allowed {off : BitVec 8} (h : (HostAccess.csrr off).allowedWhileBusy = true) (s : State) :
    hostAccess (.csrr off) s = .next (reply (.csr off (csrRead off s)) s) := hostAccess_allowed h

theorem reservedOffset_iff (off : BitVec 8) : reservedOffset off = true ↔ 0x1C ≤ off.toNat ∨ off.toNat % 4 ≠ 0 := by
  simp only [reservedOffset, Bool.or_eq_true, decide_eq_true_eq]

theorem allowedWhileBusy_csrr_iff (off : BitVec 8) : (HostAccess.csrr off).allowedWhileBusy = true ↔
    off = 0x04 ∨ off = 0x14 ∨ off = 0x18 ∨ 0x1C ≤ off.toNat ∨ off.toNat % 4 ≠ 0 := by
  simp only [HostAccess.allowedWhileBusy, Bool.or_eq_true, decide_eq_true_eq, reservedOffset_iff, or_assoc]

/-- No register of R22 stands at a reserved offset. -/
theorem ne_of_reserved {off r : BitVec 8} (h : 0x1C ≤ off.toNat ∨ off.toNat % 4 ≠ 0)
    (hr : r.toNat < 0x1C ∧ r.toNat % 4 = 0) : off ≠ r := by
  rintro rfl
  obtain ⟨hlt, hmod⟩ := hr
  exact h.elim (Nat.not_le.2 hlt) fun hne => hne hmod

theorem csrRead_reserved {off : BitVec 8} (h : 0x1C ≤ off.toNat ∨ off.toNat % 4 ≠ 0) (s : State) :
    csrRead off s = 0x00000000 := by
  rw [csrRead, if_neg (ne_of_reserved h (by decide)), if_neg (ne_of_reserved h (by decide)),
    if_neg (ne_of_reserved h (by decide)), if_neg (ne_of_reserved h (by decide)),
    if_neg (ne_of_reserved h (by decide)), if_neg (ne_of_reserved h (by decide))]

theorem csrWrite_reserved {off : BitVec 8} (h : 0x1C ≤ off.toNat ∨ off.toNat % 4 ≠ 0) (v : Word32) (s : State) :
    csrWrite off v s = s := by
  rw [csrWrite, if_neg (ne_of_reserved h (by decide)), if_neg (ne_of_reserved h (by decide)),
    if_neg (ne_of_reserved h (by decide))]

/-- Settles O42: at a reserved offset there is no register to read or write. -/
theorem reservedOffsetsReadZeroAndIgnoreWrites : Obligations.ReservedOffsetsReadZeroAndIgnoreWrites := by
  intro s off v hres
  have hallowed := (allowedWhileBusy_csrr_iff off).2 (.inr (.inr (.inr hres)))
  refine ⟨?read, fun hidle => ?write⟩
  case read => rw [hostAccess_csrr_allowed hallowed, csrRead_reserved hres, reply]
  case write => rw [hostAccess_csrw_idle s off v hidle, csrWrite_reserved hres]

/-- Settles O44: an idle block answers every CSR access with the register's read or write. -/
theorem lengthAndCapacityStoreAllBits : Obligations.LengthAndCapacityStoreAllBits := fun s v hidle =>
  ⟨hostAccess_csrw_idle s 0x08 v hidle, hostAccess_csrw_idle s 0x0C v hidle, hostAccess_csrr_idle s 0x04 hidle,
    hostAccess_csrr_idle s 0x08 hidle, hostAccess_csrr_idle s 0x0C hidle, hostAccess_csrr_idle s 0x10 hidle,
    hostAccess_csrw_idle s 0x04 v hidle, hostAccess_csrw_idle s 0x10 v hidle⟩

/-! ### CONFIG0 and CONFIG1 (R28, R29) -/

/-- MAX_WORDS of a legal build fits 16 bits, BUF_BYTES 32 (R9, R10). -/
theorem maxWords_bufBytes_le {c : Config} (h : c.legal = true) : c.maxWords ≤ 65535 ∧ c.bufBytes ≤ 2 ^ 32 - 1 := by
  simp only [Config.legal, Bool.and_eq_true, decide_eq_true_eq] at h
  omega

theorem W_le_256 (c : Config) : c.W ≤ 256 := by
  have hW := Config.W_eq c
  have hB := Config.B_le c
  omega

/-- MAX_WORDS and W of a legal build fill disjoint fields of CONFIG0. -/
theorem config0_toNat {c : Config} (h : c.legal = true) : (config0 c).toNat = c.maxWords * 2 ^ 16 + c.W := by
  have hbounds := maxWords_bufBytes_le h
  have hW := W_le_256 c
  rw [config0, BitVec.toNat_ofNat, Nat.mod_eq_of_lt (by omega)]

theorem config0_fields {c : Config} (h : c.legal = true) :
    ((config0 c).extractLsb' 0 9).toNat = c.W ∧ (config0 c).extractLsb' 9 7 = 0#7 ∧
      ((config0 c).extractLsb' 16 16).toNat = c.maxWords := by
  have hvalue := config0_toNat h
  have hbounds := maxWords_bufBytes_le h
  have hW := W_le_256 c
  rw [← BitVec.toNat_inj]
  simp only [BitVec.extractLsb'_toNat, Nat.shiftRight_eq_div_pow, hvalue, BitVec.toNat_ofNat]
  omega

theorem config1_toNat {c : Config} (h : c.legal = true) : (config1 c).toNat = c.bufBytes := by
  have hbounds := maxWords_bufBytes_le h
  rw [config1, BitVec.toNat_ofNat, Nat.mod_eq_of_lt (by omega)]

/-- Settles O43: the reads are permitted while BUSY, and compute from the build, which reset keeps. -/
theorem configRegistersReportTheBuild : Obligations.ConfigRegistersReportTheBuild := by
  intro s v hlegal
  obtain ⟨hW, hzero, hmax⟩ := config0_fields hlegal
  exact ⟨⟨config0 s.cfg, hostAccess_csrr_allowed rfl s, hW, hzero, hmax, rfl⟩,
    ⟨config1 s.cfg, hostAccess_csrr_allowed rfl s, config1_toNat hlegal, rfl⟩,
    fun hidle => ⟨hostAccess_csrw_idle s 0x14 v hidle, hostAccess_csrw_idle s 0x18 v hidle⟩⟩

/-! ### MAG and BUF while not BUSY (R33, R52 to R54) -/

/-- A W-bit value goes over the port as it is. -/
theorem toPortWidth_of_lt {c : Config} {v : Word} (h : v.toNat < 2 ^ c.W) : toPortWidth c v = v :=
  BitVec.eq_of_toNat_eq ((toNat_toPortWidth c v).trans (Nat.mod_eq_of_lt h))

section
variable {i : BitVec 16} {j : BitVec 32} {v : Word} {b : Byte}

theorem hostMagRead_written (hi : i.toNat < s.cfg.maxWords) (hr : magRead s i.toNat = some v) :
    hostMagRead i s = .next (reply (.mag i v) s) := by rw [hostMagRead, if_pos hi, hr]

theorem hostMagRead_unwritten (hi : i.toNat < s.cfg.maxWords) (hr : magRead s i.toNat = none) :
    hostMagRead i s = .fault .unwrittenRead := by rw [hostMagRead, if_pos hi, hr]

theorem hostMagRead_unimplemented (hi : s.cfg.maxWords ≤ i.toNat) : hostMagRead i s = .next (reply (.mag i 0) s) :=
  if_neg (Nat.not_lt.2 hi)

theorem hostBufRead_written (hj : j.toNat < s.cfg.bufBytes) (hr : bufRead s j.toNat = some b) :
    hostBufRead j s = .next (reply (.buf j b) s) := by rw [hostBufRead, if_pos hj, hr]

theorem hostBufRead_unwritten (hj : j.toNat < s.cfg.bufBytes) (hr : bufRead s j.toNat = none) :
    hostBufRead j s = .fault .unwrittenRead := by rw [hostBufRead, if_pos hj, hr]

theorem hostBufRead_unimplemented (hj : s.cfg.bufBytes ≤ j.toNat) : hostBufRead j s = .next (reply (.buf j 0) s) :=
  if_neg (Nat.not_lt.2 hj)

theorem hostAccess_magw_idle (hidle : busyBit s.status = false) (hi : i.toNat < s.cfg.maxWords)
    (hv : v.toNat < 2 ^ s.cfg.W) : hostAccess (.magw i v) s = .next (magWrite i.toNat v s) := by
  rw [hostAccess_idle _ hidle, performAccess, hostMagWrite, if_pos hi, toPortWidth_of_lt hv]

theorem hostAccess_bufw_idle (hidle : busyBit s.status = false) (hj : j.toNat < s.cfg.bufBytes) :
    hostAccess (.bufw j b) s = .next (bufWrite j.toNat b s) := by
  rw [hostAccess_idle _ hidle, performAccess, hostBufWrite, if_pos hj]

end

/-- Settles O45: the write is `magWrite`, by the store's laws a read after it. -/
theorem magWriteThenReadReturnsTheWord : Obligations.MagWriteThenReadReturnsTheWord := by
  intro s i v hidle hi hv
  refine ⟨magWrite i.toNat v s, hostAccess_magw_idle hidle hi hv, ?_, fun k => magRead_magWrite_other s _ k v, rfl⟩
  rw [hostAccess_idle (s := magWrite i.toNat v s) _ hidle]
  exact hostMagRead_written hi (magRead_magWrite_same s _ v)

/-- Settles O46: the write is `bufWrite`, by the store's laws a read after it. -/
theorem bufWriteThenReadReturnsTheByte : Obligations.BufWriteThenReadReturnsTheByte := by
  intro s j v hidle hj
  refine ⟨bufWrite j.toNat v s, hostAccess_bufw_idle hidle hj, ?_, fun k => bufRead_bufWrite_other s _ k v, rfl⟩
  rw [hostAccess_idle (s := bufWrite j.toNat v s) _ hidle]
  exact hostBufRead_written hj (bufRead_bufWrite_same s _ v)

/-- Settles O47: the host port compares the index with the build before it looks at storage. -/
theorem unimplementedIndicesReadZeroAndIgnoreWrites : Obligations.UnimplementedIndicesReadZeroAndIgnoreWrites := by
  intro s i j v b hidle
  simp only [hostAccess_idle _ hidle]
  refine ⟨fun hi => ⟨hostMagRead_unimplemented hi, ?magw⟩, fun hj => ⟨hostBufRead_unimplemented hj, ?bufw⟩⟩
  case magw => rw [performAccess, hostMagWrite, if_neg (Nat.not_lt.2 hi)]
  case bufw => rw [performAccess, hostBufWrite, if_neg (Nat.not_lt.2 hj)]

/-- The access reads an implemented location that nothing has written (R33). -/
def ReadsUnwritten (a : HostAccess) (s : State) : Prop :=
  (∃ i, a = .magr i ∧ i.toNat < s.cfg.maxWords ∧ magRead s i.toNat = none) ∨
  (∃ j, a = .bufr j ∧ j.toNat < s.cfg.bufBytes ∧ bufRead s j.toNat = none)

theorem performAccess_unwritten (h : ReadsUnwritten a s) : performAccess a s = .fault .unwrittenRead := by
  rcases h with ⟨i, rfl, hi, hr⟩ | ⟨j, rfl, hj, hr⟩
  · exact hostMagRead_unwritten hi hr
  · exact hostBufRead_unwritten hj hr

theorem performAccess_goes_on (h : ¬ ReadsUnwritten a s) : ∃ t, performAccess a s = .next t := by
  cases a with
  | csrw off v => exact ⟨_, rfl⟩
  | csrr off => exact ⟨_, rfl⟩
  | magw i v => exact ⟨_, rfl⟩
  | bufw j v => exact ⟨_, rfl⟩
  | magr i =>
    rcases Nat.lt_or_ge i.toNat s.cfg.maxWords with hi | hi
    · rcases hr : magRead s i.toNat with _ | v
      · exact absurd (.inl ⟨i, rfl, hi, hr⟩) h
      · exact ⟨_, hostMagRead_written hi hr⟩
    · exact ⟨_, hostMagRead_unimplemented hi⟩
  | bufr j =>
    rcases Nat.lt_or_ge j.toNat s.cfg.bufBytes with hj | hj
    · rcases hr : bufRead s j.toNat with _ | v
      · exact absurd (.inr ⟨j, rfl, hj, hr⟩) h
      · exact ⟨_, hostBufRead_written hj hr⟩
    · exact ⟨_, hostBufRead_unimplemented hj⟩

/-- Settles O50: an idle block performs the access, and that stops only where it reads an unwritten location. -/
theorem idleHostAccessFaultsExactlyOnUnwrittenReads : Obligations.IdleHostAccessFaultsExactlyOnUnwrittenReads := by
  intro s a hidle
  change (_ ↔ ReadsUnwritten a s) ∧ _
  rw [hostAccess_idle a hidle]
  by_cases h : ReadsUnwritten a s
  · rw [performAccess_unwritten h]
    exact ⟨iff_of_true nofun h, fun f hf => by cases hf; rfl⟩
  · obtain ⟨t, ht⟩ := performAccess_goes_on h
    rw [ht]
    exact ⟨iff_of_false (fun hnot => hnot ⟨t, rfl⟩) h, nofun⟩

/-! ### While BUSY (R197) -/

theorem allowedWhileBusy_iff : a.allowedWhileBusy = true ↔
    ∃ off, a = .csrr off ∧ (off = 0x04 ∨ off = 0x14 ∨ off = 0x18 ∨ 0x1C ≤ off.toNat ∨ off.toNat % 4 ≠ 0) := by
  constructor
  · intro hallowed
    cases a with
    | csrr off => exact ⟨off, rfl, (allowedWhileBusy_csrr_iff off).1 hallowed⟩
    | csrw off v => cases hallowed
    | magw i v => cases hallowed
    | magr i => cases hallowed
    | bufw j v => cases hallowed
    | bufr j => cases hallowed
  · rintro ⟨off, rfl, hoff⟩
    exact (allowedWhileBusy_csrr_iff off).2 hoff

/-- While BUSY the accesses that go on are those R197 permits. -/
theorem hostAccess_goes_on_iff_allowed (hbusy : busyBit s.status = true) :
    (∃ t, hostAccess a s = .next t) ↔ a.allowedWhileBusy = true := by
  constructor
  · rintro ⟨t, ht⟩
    by_contra hnot
    exact absurd (ht.symm.trans (hostAccess_race hbusy (by simpa using hnot))) nofun
  · intro hallowed
    obtain ⟨off, rfl, -⟩ := allowedWhileBusy_iff.1 hallowed
    exact ⟨_, hostAccess_csrr_allowed hallowed s⟩

/-- Settles O48: each access R197 names is permitted or is not. -/
theorem listedAccessesOfABusyBlockAreRaces : Obligations.ListedAccessesOfABusyBlockAreRaces := by
  intro s hbusy
  refine ⟨hostAccess_csrr_allowed rfl s, fun off hoff => ?permitted, fun _ _ => hostAccess_race hbusy rfl,
    fun _ => hostAccess_race hbusy rfl, fun _ _ => hostAccess_race hbusy rfl, fun _ => hostAccess_race hbusy rfl,
    fun off v _ => hostAccess_csrw_busy s off v hbusy, ?races⟩
  case permitted => exact hostAccess_csrr_allowed ((allowedWhileBusy_csrr_iff off).2 (.inr hoff)) s
  case races =>
    rintro off (rfl | rfl | rfl)
    all_goals exact hostAccess_race hbusy rfl

/-- Settles O49: the permitted accesses are these reads, and an access that is not permitted is a race. -/
theorem everyOtherAccessOfABusyBlockIsARace : Obligations.EveryOtherAccessOfABusyBlockIsARace := by
  intro s a hbusy
  rw [hostAccess_goes_on_iff_allowed hbusy]
  exact ⟨allowedWhileBusy_iff, fun hnot => hostAccess_race hbusy (by simpa using hnot)⟩

/-! ### Reads (R62) -/

theorem performAccess_of_hostAccess_next (h : hostAccess a s = .next t) : performAccess a s = .next t := by
  rw [hostAccess] at h
  split at h
  · cases h
  · exact h

theorem hostMagRead_next {i : BitVec 16} (h : hostMagRead i s = .next t) : ∃ r, t = reply r s := by
  rcases Nat.lt_or_ge i.toNat s.cfg.maxWords with hi | hi
  · rcases hr : magRead s i.toNat with _ | v
    · rw [hostMagRead_unwritten hi hr] at h; cases h
    · rw [hostMagRead_written hi hr] at h; cases h; exact ⟨_, rfl⟩
  · rw [hostMagRead_unimplemented hi] at h; cases h; exact ⟨_, rfl⟩

theorem hostBufRead_next {j : BitVec 32} (h : hostBufRead j s = .next t) : ∃ r, t = reply r s := by
  rcases Nat.lt_or_ge j.toNat s.cfg.bufBytes with hj | hj
  · rcases hr : bufRead s j.toNat with _ | v
    · rw [hostBufRead_unwritten hj hr] at h; cases h
    · rw [hostBufRead_written hj hr] at h; cases h; exact ⟨_, rfl⟩
  · rw [hostBufRead_unimplemented hj] at h; cases h; exact ⟨_, rfl⟩

/-- Settles O51: a read of each of the three spaces only replies. -/
theorem hostReadsHaveNoSideEffect : Obligations.HostReadsHaveNoSideEffect := by
  rintro s t a (⟨off, rfl⟩ | ⟨i, rfl⟩ | ⟨j, rfl⟩) h
  all_goals have hperform := performAccess_of_hostAccess_next h
  · cases hperform; exact ⟨_, rfl⟩
  · exact hostMagRead_next hperform
  · exact hostBufRead_next hperform

/-! ### Who writes storage (R55) -/

/-- What a host access does to storage: nothing, or the one write that it names. -/
theorem hostAccess_mem (h : hostAccess a s = .next t) :
    t.mem = s.mem ∨
    (∃ i v, a = .magw i v ∧ t = magWrite i.toNat (toPortWidth s.cfg v) s) ∨
    ∃ j v, a = .bufw j v ∧ t = bufWrite j.toNat v s := by
  rcases hostAccess_next h with
    ⟨r, rfl⟩ | ⟨-, rfl | ⟨c, -, rfl⟩ | ⟨v, rfl⟩ | ⟨v, rfl⟩ | ⟨i, v, ha, -, ht⟩ | ⟨j, v, ha, -, ht⟩⟩
  case inr.inr.inr.inr.inr.inl => exact .inr (.inl ⟨i, v, ha, ht⟩)
  case inr.inr.inr.inr.inr.inr => exact .inr (.inr ⟨j, v, ha, ht⟩)
  all_goals exact .inl rfl

/-- The host's turn changes storage only by a write at the head of its program. -/
theorem hostTurn_mem (h : hostTurn s = .next t) :
    t.mem = s.mem ∨ ∃ a rest, s.host = .access a :: rest ∧
      ((∃ i v, a = .magw i v ∧ t = magWrite i.toNat (toPortWidth s.cfg v) { s with host := rest }) ∨
        ∃ j v, a = .bufw j v ∧ t = bufWrite j.toNat v { s with host := rest }) := by
  rcases hostTurn_next h with rfl | ⟨a, rest, hh, haccess⟩ | ⟨r, l, rfl⟩
  · exact .inl rfl
  · exact (hostAccess_mem haccess).imp_right fun hwrite => ⟨a, rest, hh, hwrite⟩
  · exact .inl rfl

theorem magRead_congr (h : t.mem = s.mem) (k : Nat) : magRead t k = magRead s k := by rw [magRead, h, magRead]

theorem bufRead_congr (h : t.mem = s.mem) (k : Nat) : bufRead t k = bufRead s k := by rw [bufRead, h, bufRead]

/-- Settles O52: the core never writes MAG, and the host only the word it names. -/
theorem onlyTheHostWritesMagnitudeWords : Obligations.OnlyTheHostWritesMagnitudeWords := by
  intro u s t k h hne
  cases u with
  | reset => exact .inl rfl
  | core => exact absurd (by rw [coreTurn_frame h]; rfl) hne
  | host =>
    rcases hostTurn_mem h with hmem | ⟨a, rest, hh, ⟨i, v, rfl, rfl⟩ | ⟨j, v, rfl, rfl⟩⟩
    · exact absurd (magRead_congr hmem k) hne
    · have hk : i.toNat = k := by
        by_contra hik
        exact hne (magRead_magWrite_other _ _ _ _ (Ne.symm hik))
      exact .inr ⟨rfl, i, v, rest, hh, hk⟩
    · exact absurd (magRead_bufWrite _ _ _ _) hne

/-- The core's turn changes storage only by a pending MARSHAL. -/
theorem coreTurn_mem (h : coreTurn s = .next t) :
    t.mem = s.mem ∨ (s.pending = true ∧ decode s.cmdlat = .command .marshal) := by
  rcases coreTurn_next h with ⟨-, rfl⟩ | ⟨hp, i, hd, hexec⟩ | ⟨-, rfl⟩
  · exact .inl rfl
  · by_cases hi : i = .marshal
    · exact .inr ⟨hp, hi ▸ hd⟩
    · exact .inl (exec_mem hi hexec)
  · exact .inl rfl

/-- Settles O53: the core writes BUF only by MARSHAL, and the host only the byte it names. -/
theorem onlyTheHostAndMarshalWriteBufferBytes : Obligations.OnlyTheHostAndMarshalWriteBufferBytes := by
  intro u s t k h hne
  cases u with
  | reset => exact .inl rfl
  | core =>
    rcases coreTurn_mem h with hmem | ⟨hp, hd⟩
    · exact absurd (bufRead_congr hmem k) hne
    · exact .inr (.inr ⟨rfl, hp, hd⟩)
  | host =>
    rcases hostTurn_mem h with hmem | ⟨a, rest, hh, ⟨i, v, rfl, rfl⟩ | ⟨j, v, rfl, rfl⟩⟩
    · exact absurd (bufRead_congr hmem k) hne
    · exact absurd (bufRead_magWrite _ _ _ _) hne
    · have hk : j.toNat = k := by
        by_contra hjk
        exact hne (bufRead_bufWrite_other _ _ _ _ (Ne.symm hjk))
      exact .inr (.inl ⟨rfl, j, v, rest, hh, hk⟩)

end Sys2Proof.Machine
end

section
/-!
PROOF. Runs of the host program (spec/30_encoding.md R79; spec/70_reset_and_hazards.md R194, R195, R200): every wait
ends, `setmag v` presents `v`, and the program that presents a value and runs MARSHAL finds its encoding.
-/
namespace Sys2Proof.Machine

variable {s s1 t : State}

/-! ### Every wait ends (R200) -/

/-- Within `b` steps from `s` the host goes on with `rest`, or a command reads unwritten storage. -/
def WaitEndsWithin (b : Nat) (rest : List HostStmt) (s : State) : Prop :=
  ∃ k, k ≤ b ∧
    ((∃ t : State, Host.Core.run Sys2Proof.core k s = .next t ∧ t.host = rest) ∨
      Host.Core.run Sys2Proof.core k s = .fault Fault.unwrittenRead)

section
variable {b : Nat} {rest : List HostStmt}

theorem WaitEndsWithin.of_host_eq (h : s.host = rest) : WaitEndsWithin b rest s :=
  ⟨0, Nat.zero_le b, .inl ⟨s, run_zero s, h⟩⟩

theorem WaitEndsWithin.of_fault (h : step s = .fault .unwrittenRead) : WaitEndsWithin (b + 1) rest s :=
  ⟨1, Nat.le_add_left 1 b, .inr (run_fault 0 h)⟩

theorem WaitEndsWithin.of_step (hstep : step s = .next t) (h : WaitEndsWithin b rest t) :
    WaitEndsWithin (b + 1) rest s := by
  obtain ⟨k, hk, hends⟩ := h
  exact ⟨k + 1, Nat.succ_le_succ hk, by rwa [run_succ k hstep]⟩

/-- The core's move keeps the host waiting on what is left of the schedule, or reads unwritten storage. -/
theorem WaitEndsWithin.of_core (hstep : step s = coreTurn s1)
    (h : ∀ t, coreTurn s1 = .next t → WaitEndsWithin b rest t) : WaitEndsWithin (b + 1) rest s := by
  rcases coreTurn_stops s1 with ⟨t, ht⟩ | hfault
  · exact .of_step (hstep.trans ht) (h t ht)
  · exact .of_fault (hstep.trans hfault)

/-- The host's poll of an idle block ends the wait. -/
theorem WaitEndsWithin.of_poll (hstep : step s = hostTurn s1) (hh : s1.host = .wait :: rest)
    (hidle : busyBit s1.status = false) : WaitEndsWithin (b + 1) rest s := by
  rw [hostTurn_wait hh, if_neg (by simp [hidle])] at hstep
  exact .of_step hstep (.of_host_eq rfl)

/-- With no schedule left and nothing pending, the host polls an idle block. -/
theorem waitEndsWithin_idle (hinv : s.Inv) (hs : s.sched = []) (hp : s.pending = false)
    (hh : s.host = .wait :: rest) : WaitEndsWithin (b + 1) rest s :=
  .of_poll (step_of_host (.inr ⟨hs, hp, rfl⟩)) hh (hinv.busy_eq_pending.trans hp)

/-- With no schedule left, a pending command is performed first. -/
theorem waitEndsWithin_two (hinv : s.Inv) (hs : s.sched = []) (hh : s.host = .wait :: rest) :
    WaitEndsWithin 2 rest s := by
  rcases hp : s.pending with _ | _
  · exact waitEndsWithin_idle hinv hs hp hh
  · refine .of_core (step_of_core (.inr ⟨hs, hp, rfl⟩)) fun t ht => ?_
    have hframe := coreTurn_frame ht
    obtain ⟨-, hpt, -⟩ := idle_and_done_of_ends (coreTurn_ends hp ht)
    exact waitEndsWithin_idle (coreTurn_keeps_inv hinv ht) (by rw [hframe]; exact hs) hpt (by rw [hframe]; exact hh)

/-- Each turn that is left of the schedule ends the wait or leaves the host waiting with one turn less. -/
theorem waitEndsWithin_sched (l : List Turn) (hinv : s.Inv) (hs : s.sched = l) (hh : s.host = .wait :: rest) :
    WaitEndsWithin (l.length + 2) rest s := by
  induction l generalizing s with
  | nil => exact waitEndsWithin_two hinv hs hh
  | cons u l ih =>
    have hinv' : ({ s with sched := l } : State).Inv := hinv.congr rfl rfl rfl rfl rfl
    cases u with
    | host =>
      have hstep : step s = hostTurn { s with sched := l } := step_of_host (.inl ⟨l, hs, rfl⟩)
      rcases hb : busyBit s.status with _ | _
      · exact .of_poll hstep hh hb
      · have hpoll := hostTurn_wait (s := { s with sched := l }) hh
        rw [if_pos hb] at hpoll
        exact .of_step (hstep.trans hpoll) (ih (hinv.congr rfl rfl rfl rfl rfl) rfl hh)
    | core =>
      refine .of_core (step_of_core (.inl ⟨l, hs, rfl⟩)) fun t ht => ?_
      have hframe := coreTurn_frame ht
      exact ih (coreTurn_keeps_inv hinv' ht) (by rw [hframe]) (by rw [hframe]; exact hh)
    | reset => exact .of_step (step_of_reset hs) (ih hinv'.assertReset rfl hh)

end

/-- Settles O58: by induction on the schedule, whose turns keep the invariant. -/
theorem everyWaitEnds : Obligations.EveryWaitEnds := fun s _ hinv hh => waitEndsWithin_sched s.sched hinv rfl hh

/-! ### The words of a value (R13, R79) -/

/-- Word `i` of the value `v`, as `setmag v` writes it. -/
def digit (c : Config) (v i : Nat) : Word := BitVec.ofNat 256 (v / 2 ^ (c.W * i) % 2 ^ c.W)

section
variable (c : Config) (v : Nat)

theorem W_pos : 0 < c.W := by
  have hW := Config.W_eq c
  have hB := Config.B_pos c
  omega

theorem digit_toNat (i : Nat) : (digit c v i).toNat = v / 2 ^ (c.W * i) % 2 ^ c.W := by
  have hlt : v / 2 ^ (c.W * i) % 2 ^ c.W < 2 ^ c.W := Nat.mod_lt _ (by positivity)
  rw [digit, BitVec.toNat_ofNat, Nat.mod_eq_of_lt (hlt.trans_le (Nat.pow_le_pow_right (by decide) (W_le_256 c)))]

theorem digit_lt (i : Nat) : (digit c v i).toNat < 2 ^ c.W := by
  rw [digit_toNat]; exact Nat.mod_lt _ (by positivity)

/-- The low `n` words of `v` denote `v` modulo `2^(W*n)`. -/
theorem val_digit (n : Nat) : val c (digit c v) n = v % 2 ^ (c.W * n) := by
  induction n with
  | zero => rw [val, Nat.mul_zero, Nat.pow_zero, Nat.mod_one]
  | succ n ih => rw [val, ih, digit_toNat, Nat.mul_succ, Nat.pow_add, Nat.mod_mul, Nat.mul_comm (2 ^ (c.W * n))]

/-- `wordCount(v)` is the least `n` with `v < 2^(W*n)` (R79). -/
theorem wordCount_le_iff (n : Nat) : wordCount c v ≤ n ↔ v < 2 ^ (c.W * n) := by
  unfold wordCount
  by_cases hv : v = 0
  · simp [hv]
  · rw [if_neg hv, ← Nat.log2_lt hv, Nat.succ_le_iff, Nat.div_lt_iff_lt_mul (W_pos c), Nat.mul_comm n]

/-- The words that `setmag v` writes denote `v`. -/
theorem val_digit_wordCount : val c (digit c v) (wordCount c v) = v := by
  rw [val_digit, Nat.mod_eq_of_lt ((wordCount_le_iff c v _).1 le_rfl)]

/-- The last word that `setmag v` writes is not 0: fewer words would hold `v` otherwise. -/
theorem digit_top_ne_zero (h : 0 < wordCount c v) : digit c v (wordCount c v - 1) ≠ 0 := by
  intro h0
  have hdrop := val_drop_zero c (digit c v) (wordCount c v) (wordCount c v - 1) (Nat.sub_le _ _) fun i h1 h2 => by
    rwa [show i = wordCount c v - 1 by omega]
  rw [val_digit_wordCount, val_digit] at hdrop
  have hlt : v < 2 ^ (c.W * (wordCount c v - 1)) := hdrop.trans_lt (Nat.mod_lt _ (by positivity))
  have hle := (wordCount_le_iff c v _).2 hlt
  omega

/-! ### The words in storage (R52) -/

/-- The MAG storage after the first `n` words of `v` have been written into `g`. -/
def storeDigits : Nat → List (Nat × Word) → List (Nat × Word)
  | 0, g => g
  | n + 1, g => Store.write (storeDigits n g) n (digit c v n)

variable (g : List (Nat × Word)) (n k : Nat)

theorem read_storeDigits_above (h : n ≤ k) : Store.read (storeDigits c v n g) k = Store.read g k := by
  induction n with
  | zero => rfl
  | succ n ih => rw [storeDigits, Store.read_write_other _ _ _ _ (by omega), ih (by omega)]

theorem read_storeDigits_below (h : k < n) : Store.read (storeDigits c v n g) k = some (digit c v k) := by
  induction n with
  | zero => exact absurd h (Nat.not_lt_zero k)
  | succ n ih =>
    rcases Nat.lt_succ_iff_lt_or_eq.1 h with hlt | rfl
    · rw [storeDigits, Store.read_write_other _ _ _ _ (by omega), ih hlt]
    · exact Store.read_write_same _ _ _

end

/-! ### Idle steps -/

/-- Nothing is pending and no turn is scheduled, so the host moves and no access of it is a hazard. -/
structure Idle (s : State) : Prop where
  sched : s.sched = []
  pending : s.pending = false
  busy : busyBit s.status = false

theorem State.Inv.idle (h : s.Inv) (hp : s.pending = false) (hs : s.sched = []) : Idle s :=
  ⟨hs, hp, h.busy_eq_pending.trans hp⟩

/-- On an idle block the host's next access is a run of one step. -/
theorem Idle.run_access {a : HostAccess} {rest : List HostStmt} (h : Idle s) (hh : s.host = .access a :: rest)
    (ha : performAccess a { s with host := rest } = .next t) : Host.Core.run Sys2Proof.core 1 s = .next t := by
  have hstep : step s = .next t := by
    rw [step_idle_host h.sched h.pending hh, hostAccess_idle (s := { s with host := rest }) a h.busy, ha]
  rw [run_succ 0 hstep, run_zero]

/-! ### `setmag v` (R79) -/

/-- The state in which the first `n` words of `v` have been written and the program `rest` is still to run. -/
def withDigits (v n : Nat) (rest : List HostStmt) (s : State) : State :=
  { s with mem := { s.mem with mag := storeDigits s.cfg v n s.mem.mag }, host := rest }

theorem setmagWrites_succ (c : Config) (v n : Nat) :
    setmagWrites c v (n + 1) = setmagWrites c v n ++ [.access (.magw (BitVec.ofNat 16 n) (digit c v n))] := by
  rw [setmagWrites, List.range_succ, List.map_append]; rfl

/-- The write of word `n` goes to that word as it is. -/
theorem performAccess_digit (hlegal : s.cfg.legal = true) (v : Nat) {n : Nat} (hn : n < s.cfg.maxWords) :
    performAccess (.magw (BitVec.ofNat 16 n) (digit s.cfg v n)) s = .next (magWrite n (digit s.cfg v n) s) := by
  have hidx : (BitVec.ofNat 16 n).toNat = n := by
    have hbounds := maxWords_bufBytes_le hlegal
    rw [BitVec.toNat_ofNat, Nat.mod_eq_of_lt (by omega)]
  rw [performAccess, hostMagWrite, hidx, if_pos hn, toPortWidth_of_lt (digit_lt s.cfg v n)]

/-- The writes run one step each, the last one last. -/
theorem run_setmagWrites (hidle : Idle s) (hlegal : s.cfg.legal = true) (v : Nat) (rest : List HostStmt) (n : Nat)
    (hn : n ≤ s.cfg.maxWords) (hh : s.host = setmagWrites s.cfg v n ++ rest) :
    Host.Core.run Sys2Proof.core n s = .next (withDigits v n rest s) := by
  induction n generalizing rest with
  | zero =>
    have hself : withDigits v 0 rest s = s := congrArg (fun host => { s with host }) hh.symm
    rw [run_zero, hself]
  | succ n ih =>
    rw [setmagWrites_succ, List.append_assoc] at hh
    rw [run_add n 1 (ih _ (Nat.le_of_succ_le hn) hh)]
    exact Idle.run_access ⟨hidle.sched, hidle.pending, hidle.busy⟩ rfl
      (performAccess_digit (s := withDigits v n rest s) hlegal v hn)

/-- The state that `setmag v` leads to. -/
def presenting (v : Nat) (rest : List HostStmt) (s : State) : State :=
  { withDigits v (wordCount s.cfg v) rest s with magLen := BitVec.ofNat 32 (wordCount s.cfg v) }

theorem run_setmag (hidle : Idle s) (hlegal : s.cfg.legal = true) {v : Nat} {rest : List HostStmt}
    (hn : wordCount s.cfg v ≤ s.cfg.maxWords) (hh : s.host = AsmLine.expand s.cfg (.setmag v) ++ rest) :
    Host.Core.run Sys2Proof.core (wordCount s.cfg v + 1) s = .next (presenting v rest s) := by
  rw [AsmLine.expand, List.append_assoc] at hh
  rw [run_add _ 1 (run_setmagWrites hidle hlegal v _ _ hn hh)]
  exact Idle.run_access ⟨hidle.sched, hidle.pending, hidle.busy⟩ rfl rfl

section
variable {v : Nat} (hlegal : s.cfg.legal = true) (hn : wordCount s.cfg v ≤ s.cfg.maxWords) (rest : List HostStmt)
include hlegal hn

theorem presenting_magLen : (presenting v rest s).magLen.toNat = wordCount s.cfg v := by
  have hbounds := maxWords_bufBytes_le hlegal
  exact (BitVec.toNat_ofNat _ _).trans (Nat.mod_eq_of_lt (by omega))

theorem presentsMagnitude_presenting : PresentsMagnitude (presenting v rest s) (digit s.cfg v) := by
  have hlen := presenting_magLen hlegal hn rest
  constructor
  case in_bounds => rw [hlen]; exact hn
  case written => rw [hlen]; exact fun i => read_storeDigits_below s.cfg v s.mem.mag _ i
  case width => exact fun i _ => digit_lt s.cfg v i
  case canonical => rw [hlen]; exact digit_top_ne_zero s.cfg v

theorem valueOf_presenting : valueOf (presenting v rest s) (digit s.cfg v) = v := by
  rw [valueOf, presenting_magLen hlegal hn rest]
  exact val_digit_wordCount s.cfg v

end

/-- Settles O59: the run leads to `presenting v`, which holds the words of `v`. -/
theorem setmagPresentsTheValue : Obligations.SetmagPresentsTheValue := by
  intro s v rest hinv hp hs hn hh
  exact ⟨presenting v rest s, digit s.cfg v, run_setmag (hinv.idle hp hs) hinv.legal hn hh,
    presentsMagnitude_presenting hinv.legal hn rest, valueOf_presenting hinv.legal hn rest,
    presenting_magLen hinv.legal hn rest, fun k => read_storeDigits_above s.cfg v s.mem.mag _ k, rfl⟩

/-! ### A program that runs MARSHAL (R194, R195) -/

/-- The state after the CMD write of `run i`: the command is pending and the host waits, with `rest` to run after it. -/
def issued (i : Instr) (rest : List HostStmt) (s : State) : State :=
  startCommand (encode i) { s with host := .wait :: rest }

theorem Idle.step_issue {i : Instr} {rest : List HostStmt} (h : Idle s) (hh : s.host = issue i :: .wait :: rest) :
    step s = .next (issued i rest s) := by
  rw [step_idle_host h.sched h.pending hh, hostAccess_csrw_idle { s with host := .wait :: rest } _ _ h.busy,
    csrWrite_cmd, issued]

theorem Idle.step_issued (h : Idle s) (i : Instr) (rest : List HostStmt) :
    step (issued i rest s) = exec i (issued i rest s) := by
  have hcore : CoreToMove (issued i rest s) (issued i rest s) := .inr ⟨h.sched, rfl, rfl⟩
  rw [step_of_core hcore, coreTurn_command rfl (decode_encode i)]

/-- `run i` on an idle block takes three steps: the CMD write, the command, and one poll of STATUS. -/
theorem Idle.run_command {i : Instr} {rest : List HostStmt} (h : Idle s) (hh : s.host = issue i :: .wait :: rest)
    (hexec : exec i (issued i rest s) = .next t) :
    Host.Core.run Sys2Proof.core 3 s = .next (reply (.csr 0x04 t.status) { t with host := rest }) := by
  have hframe := exec_frame hexec
  obtain ⟨hbusy, hpending, -⟩ := idle_and_done_of_ends (exec_ends hexec)
  have hsched : t.sched = [] := by rw [hframe]; exact h.sched
  have hwait : t.host = .wait :: rest := by rw [hframe]; rfl
  have hpoll : step t = .next (reply (.csr 0x04 t.status) { t with host := rest }) := by
    rw [step_of_host (.inr ⟨hsched, hpending, rfl⟩), hostTurn_wait hwait, if_neg (by simp [hbusy])]
  rw [run_succ 2 (h.step_issue hh), run_succ 1 ((h.step_issued i rest).trans hexec), run_succ 0 hpoll, run_zero]

/-- The state in which `setmag v; csrw BUF_CAP, cap; run marshal` has its MARSHAL pending. -/
def marshalPending (v cap : Nat) (rest : List HostStmt) (s : State) : State :=
  issued .marshal rest { presenting v (issue .marshal :: .wait :: rest) s with bufCap := BitVec.ofNat 32 cap }

/-- The program takes a step for each access of `setmag v`, one for the capacity and three for `run marshal`. -/
theorem run_marshalProgram (hidle : Idle s) (hlegal : s.cfg.legal = true) {v cap : Nat} {rest : List HostStmt}
    (hn : wordCount s.cfg v ≤ s.cfg.maxWords)
    (hh : s.host = assemble s.cfg [.setmag v, .access (.csrw 0x0C (BitVec.ofNat 32 cap)), .run .marshal] ++ rest)
    (hexec : exec .marshal (marshalPending v cap rest s) = .next t) :
    Host.Core.run Sys2Proof.core (wordCount s.cfg v + 1 + (1 + 3)) s =
      .next (reply (.csr 0x04 t.status) { t with host := rest }) := by
  have hprogram : s.host = AsmLine.expand s.cfg (.setmag v) ++
      (.access (.csrw 0x0C (BitVec.ofNat 32 cap)) :: issue .marshal :: .wait :: rest) := by
    rw [hh]; simp [assemble, AsmLine.expand]
  rw [run_add _ _ (run_setmag hidle hlegal hn hprogram), run_add 1 3 (Idle.run_access _ rfl rfl)]
  · exact Idle.run_command ⟨hidle.sched, hidle.pending, hidle.busy⟩ rfl hexec
  · exact ⟨hidle.sched, hidle.pending, hidle.busy⟩

/-- Settles O60: `setmag v` presents `v`, the capacity is stored, and MARSHAL writes the encoding (O18). -/
theorem hostProgramMarshalsAnyValue : Obligations.HostProgramMarshalsAnyValue := by
  intro s v cap rest hinv hp hs hn hmin hcap hh
  have hlegal := hinv.legal
  have hcapNat : (BitVec.ofNat 32 cap).toNat = cap := by
    have hbounds := maxWords_bufBytes_le hlegal
    rw [BitVec.toNat_ofNat, Nat.mod_eq_of_lt (by omega)]
  have hpresents : PresentsMagnitude (marshalPending v cap rest s) (digit s.cfg v) :=
    have h := presentsMagnitude_presenting hlegal hn rest
    ⟨h.in_bounds, h.written, h.width, h.canonical⟩
  have hvalue : valueOf (marshalPending v cap rest s) (digit s.cfg v) = v := valueOf_presenting hlegal hn rest
  obtain ⟨t, hexec, hend, hresult, hbytes, -⟩ := marshalWritesTheMinimalEncoding
    (marshalPending v cap rest s) _ hlegal hpresents (hcapNat.trans_le hcap)
    (by rw [hvalue]; exact hmin.trans_eq hcapNat.symm)
  rw [hvalue] at hresult hbytes
  exact ⟨_, _, run_marshalProgram (hinv.idle hp hs) hlegal hn hh hexec, rfl, hend.pending, hend.err, hresult, hbytes,
    fun j hj => bufRead_exec (s := marshalPending v cap rest s) hlegal hexec j (hresult.trans_le hj)⟩

end Sys2Proof.Machine
end
